-- ==== Sys2Proof/Word.lean ====
section
/-! DEFINITION. The widths the spec fixes (00_scope.md rule R6): bytes, words, 12-bit addresses, register indices. -/

namespace Sys2Proof

/-- A register or a memory byte: 8 bits, unsigned (rule R9). -/
abbrev Byte := BitVec 8

/-- The width of `pc`, `I`, a stack entry and an instruction word: 16 bits. -/
abbrev Word := BitVec 16

/-- The address operand `nnn`: 12 bits (30_encoding.md rule R72). -/
abbrev Addr := BitVec 12

/-- The operands `x` and `y`: each of the 16 values names a register (10_state.md rule R21). -/
abbrev RegIdx := Fin 16

end Sys2Proof
end

