-- ==== Sys2Proof/Syntax.lean ====
section
/-! DEFINITION. The 34 instructions of 00_scope.md rule R2, one constructor per row of spec/opcode_table.json, in the
table's order. -/

namespace Sys2Proof

/-- The instruction set. `x`, `y` name registers, `kk` is the 8-bit immediate, `nnn` the 12-bit address, `n` the sprite
height (30_encoding.md rule R72). Each operand's type is exactly the range the encoding admits (rule R74: every value of
every field is valid), so every term of this type is an instruction. -/
inductive Instr where
  /-- `00E0`, clear the display (rule R104). -/
  | cls
  /-- `00EE`, return (rule R120). -/
  | ret
  /-- `1nnn`, jump (rule R121). -/
  | jp (nnn : Addr)
  /-- `2nnn`, call (rule R122). -/
  | call (nnn : Addr)
  /-- `3xkk`, skip if `Vx = kk` (rule R123). -/
  | seImm (x : RegIdx) (kk : Byte)
  /-- `4xkk`, skip if `Vx /= kk` (rule R124). -/
  | sneImm (x : RegIdx) (kk : Byte)
  /-- `5xy0`, skip if `Vx = Vy` (rule R125). -/
  | seReg (x y : RegIdx)
  /-- `6xkk`, load immediate (rule R142). -/
  | ldImm (x : RegIdx) (kk : Byte)
  /-- `7xkk`, add immediate (rule R143). -/
  | addImm (x : RegIdx) (kk : Byte)
  /-- `8xy0`, copy (rule R144). -/
  | ldReg (x y : RegIdx)
  /-- `8xy1`, OR (rule R145). -/
  | orReg (x y : RegIdx)
  /-- `8xy2`, AND (rule R146). -/
  | andReg (x y : RegIdx)
  /-- `8xy3`, XOR (rule R147). -/
  | xorReg (x y : RegIdx)
  /-- `8xy4`, add with carry out (rule R148). -/
  | addReg (x y : RegIdx)
  /-- `8xy5`, `Vx - Vy` (rule R149). -/
  | subReg (x y : RegIdx)
  /-- `8xy6`, shift right; `y` is decoded and has no effect (rules R78, R150). -/
  | shr (x y : RegIdx)
  /-- `8xy7`, `Vy - Vx` (rule R151). -/
  | subnReg (x y : RegIdx)
  /-- `8xyE`, shift left; `y` is decoded and has no effect (rules R78, R152). -/
  | shl (x y : RegIdx)
  /-- `9xy0`, skip if `Vx /= Vy` (rule R126). -/
  | sneReg (x y : RegIdx)
  /-- `Annn`, load the index register (rule R170). -/
  | ldIndex (nnn : Addr)
  /-- `Bnnn`, jump to `nnn + V0` (rule R127). -/
  | jpV0 (nnn : Addr)
  /-- `Cxkk`, random byte AND `kk` (rule R153). -/
  | rnd (x : RegIdx) (kk : Byte)
  /-- `Dxyn`, draw an `n`-byte sprite (rule R105). -/
  | drw (x y : RegIdx) (n : Fin 16)
  /-- `Ex9E`, skip if key `Vx` is pressed (rule R190). -/
  | skp (x : RegIdx)
  /-- `ExA1`, skip if key `Vx` is not pressed (rule R191). -/
  | sknp (x : RegIdx)
  /-- `Fx07`, read the delay timer (rule R192). -/
  | ldFromDt (x : RegIdx)
  /-- `Fx0A`, wait for a key (rule R193). -/
  | waitKey (x : RegIdx)
  /-- `Fx15`, set the delay timer (rule R194). -/
  | setDt (x : RegIdx)
  /-- `Fx18`, set the sound timer (rule R195). -/
  | setSt (x : RegIdx)
  /-- `Fx1E`, add to the index register (rule R171). -/
  | addIndex (x : RegIdx)
  /-- `Fx29`, point the index at a glyph (rule R172). -/
  | ldGlyph (x : RegIdx)
  /-- `Fx33`, store decimal digits (rule R173). -/
  | bcd (x : RegIdx)
  /-- `Fx55`, store `V0`..`Vx` (rule R174). -/
  | storeRegs (x : RegIdx)
  /-- `Fx65`, load `V0`..`Vx` (rule R175). -/
  | loadRegs (x : RegIdx)
deriving DecidableEq, Repr

end Sys2Proof
end

