-- ==== Sys2Proof/Decode.lean ====
section
/-! DEFINITION. The decoder (30_encoding.md rules R71 to R85), total on every word and on every byte sequence, the
encoder written from the same format table (rule R73), and the rows of the opcode table. -/

namespace Sys2Proof

/-! ### Fields (rule R72) -/

/-- `n1 = w[15:12]`, the opcode class. -/
def opClass (w : Word) : BitVec 4 := w.extractLsb' 12 4

/-- `x = w[11:8]`. -/
def fieldX (w : Word) : RegIdx := (w.extractLsb' 8 4).toFin

/-- `y = w[7:4]`. -/
def fieldY (w : Word) : RegIdx := (w.extractLsb' 4 4).toFin

/-- `n = n4 = w[3:0]`, as the sub-opcode nibble. -/
def nibble4 (w : Word) : BitVec 4 := w.extractLsb' 0 4

/-- `n = w[3:0]`, as a count. -/
def fieldN (w : Word) : Fin 16 := (nibble4 w).toFin

/-- `nnn = w[11:0]`. -/
def fieldNnn (w : Word) : Addr := w.extractLsb' 0 12

/-- `kk = w[7:0]`. -/
def fieldKk (w : Word) : Byte := w.extractLsb' 0 8

/-! ### The decoder -/

/-- Class `0x0` selects by the whole word (rule R76). -/
def decodeClass0 (w : Word) : Option Instr :=
  if w = 0x00E0#16 then some .cls else if w = 0x00EE#16 then some .ret else none

/-- Class `0x8` selects by the low nibble (rule R78). -/
def decodeClass8 (x y : RegIdx) (n4 : BitVec 4) : Option Instr :=
  match n4 with
  | 0x0#4 => some (.ldReg x y)
  | 0x1#4 => some (.orReg x y)
  | 0x2#4 => some (.andReg x y)
  | 0x3#4 => some (.xorReg x y)
  | 0x4#4 => some (.addReg x y)
  | 0x5#4 => some (.subReg x y)
  | 0x6#4 => some (.shr x y)
  | 0x7#4 => some (.subnReg x y)
  | 0xE#4 => some (.shl x y)
  | _ => none

/-- Class `0xE` selects by the low byte (rule R79). -/
def decodeClassE (x : RegIdx) (kk : Byte) : Option Instr :=
  match kk with
  | 0x9E#8 => some (.skp x)
  | 0xA1#8 => some (.sknp x)
  | _ => none

/-- Class `0xF` selects by the low byte (rule R80). -/
def decodeClassF (x : RegIdx) (kk : Byte) : Option Instr :=
  match kk with
  | 0x07#8 => some (.ldFromDt x)
  | 0x0A#8 => some (.waitKey x)
  | 0x15#8 => some (.setDt x)
  | 0x18#8 => some (.setSt x)
  | 0x1E#8 => some (.addIndex x)
  | 0x29#8 => some (.ldGlyph x)
  | 0x33#8 => some (.bcd x)
  | 0x55#8 => some (.storeRegs x)
  | 0x65#8 => some (.loadRegs x)
  | _ => none

/-- The decoder: a pure function of the word (rule R72), dispatching on the class (rule R75); `none` is `Unknown`
(rule R84). -/
def decodeWord (w : Word) : Option Instr :=
  match opClass w with
  | 0x0#4 => decodeClass0 w
  | 0x1#4 => some (.jp (fieldNnn w))
  | 0x2#4 => some (.call (fieldNnn w))
  | 0x3#4 => some (.seImm (fieldX w) (fieldKk w))
  | 0x4#4 => some (.sneImm (fieldX w) (fieldKk w))
  | 0x5#4 => if nibble4 w = 0x0#4 then some (.seReg (fieldX w) (fieldY w)) else none
  | 0x6#4 => some (.ldImm (fieldX w) (fieldKk w))
  | 0x7#4 => some (.addImm (fieldX w) (fieldKk w))
  | 0x8#4 => decodeClass8 (fieldX w) (fieldY w) (nibble4 w)
  | 0x9#4 => if nibble4 w = 0x0#4 then some (.sneReg (fieldX w) (fieldY w)) else none
  | 0xA#4 => some (.ldIndex (fieldNnn w))
  | 0xB#4 => some (.jpV0 (fieldNnn w))
  | 0xC#4 => some (.rnd (fieldX w) (fieldKk w))
  | 0xD#4 => some (.drw (fieldX w) (fieldY w) (fieldN w))
  | 0xE#4 => decodeClassE (fieldX w) (fieldKk w)
  | 0xF#4 => decodeClassF (fieldX w) (fieldKk w)
  | _ => none

/-- The word of two bytes, the byte at the lower address first (20_memory.md rule R53). -/
def wordOfBytes (hi lo : Byte) : Word := hi ++ lo

/-- Why a byte sequence does not begin with an instruction. -/
inductive DecodeError where
  /-- Fewer than two bytes: every instruction has two (rule R71). -/
  | truncated
  /-- The word is unrecognised (rule R84). -/
  | unknownInstruction (w : Word)
deriving DecidableEq, Repr

/-- The decoder on bytes: the instruction at the front and the bytes after it, or the reason there is none. -/
def decodeBytes (bytes : List Byte) : Except DecodeError (Instr × List Byte) :=
  match bytes with
  | hi :: lo :: rest =>
    match decodeWord (wordOfBytes hi lo) with
    | some i => .ok (i, rest)
    | none => .error (.unknownInstruction (wordOfBytes hi lo))
  | _ => .error .truncated

/-- The word whose bits the opcode table numbers as `w`, bits from `nbits` up being 0. One word is the whole
instruction, so the table's numbering is the word's own. -/
def tableWord (nbits w : Nat) : Word := BitVec.ofNat 16 (w % 2 ^ nbits)

/-- The bytes of a word as memory holds them, big-endian (20_memory.md rule R53). -/
def bytesOfWord (w : Word) : List Byte := [w.extractLsb' 8 8, w.extractLsb' 0 8]

/-- What the decoder reads from the word the opcode table numbers as `w`. -/
def decodeTableWord (nbits w : Nat) : Option Instr :=
  match decodeBytes (bytesOfWord (tableWord nbits w)) with
  | .ok (i, _) => some i
  | .error _ => none

/-! ### The encoder (rule R73) -/

/-- Format `ADDR`. -/
def encAddr (cls : BitVec 4) (nnn : Addr) : Word := cls ++ nnn

/-- Formats `XKK` and `XF`. -/
def encXkk (cls : BitVec 4) (x : RegIdx) (kk : Byte) : Word := cls ++ BitVec.ofFin (w := 4) x ++ kk

/-- Formats `XY` and `XYN`. -/
def encXyn (cls : BitVec 4) (x y : RegIdx) (n : BitVec 4) : Word :=
  cls ++ BitVec.ofFin (w := 4) x ++ BitVec.ofFin (w := 4) y ++ n

/-- The word of an instruction. -/
def encode (i : Instr) : Word :=
  match i with
  | .cls => 0x00E0#16
  | .ret => 0x00EE#16
  | .jp nnn => encAddr 0x1#4 nnn
  | .call nnn => encAddr 0x2#4 nnn
  | .seImm x kk => encXkk 0x3#4 x kk
  | .sneImm x kk => encXkk 0x4#4 x kk
  | .seReg x y => encXyn 0x5#4 x y 0x0#4
  | .ldImm x kk => encXkk 0x6#4 x kk
  | .addImm x kk => encXkk 0x7#4 x kk
  | .ldReg x y => encXyn 0x8#4 x y 0x0#4
  | .orReg x y => encXyn 0x8#4 x y 0x1#4
  | .andReg x y => encXyn 0x8#4 x y 0x2#4
  | .xorReg x y => encXyn 0x8#4 x y 0x3#4
  | .addReg x y => encXyn 0x8#4 x y 0x4#4
  | .subReg x y => encXyn 0x8#4 x y 0x5#4
  | .shr x y => encXyn 0x8#4 x y 0x6#4
  | .subnReg x y => encXyn 0x8#4 x y 0x7#4
  | .shl x y => encXyn 0x8#4 x y 0xE#4
  | .sneReg x y => encXyn 0x9#4 x y 0x0#4
  | .ldIndex nnn => encAddr 0xA#4 nnn
  | .jpV0 nnn => encAddr 0xB#4 nnn
  | .rnd x kk => encXkk 0xC#4 x kk
  | .drw x y n => encXyn 0xD#4 x y (BitVec.ofFin (w := 4) n)
  | .skp x => encXkk 0xE#4 x 0x9E#8
  | .sknp x => encXkk 0xE#4 x 0xA1#8
  | .ldFromDt x => encXkk 0xF#4 x 0x07#8
  | .waitKey x => encXkk 0xF#4 x 0x0A#8
  | .setDt x => encXkk 0xF#4 x 0x15#8
  | .setSt x => encXkk 0xF#4 x 0x18#8
  | .addIndex x => encXkk 0xF#4 x 0x1E#8
  | .ldGlyph x => encXkk 0xF#4 x 0x29#8
  | .bcd x => encXkk 0xF#4 x 0x33#8
  | .storeRegs x => encXkk 0xF#4 x 0x55#8
  | .loadRegs x => encXkk 0xF#4 x 0x65#8

/-! ### The opcode table -/

/-- One row of spec/opcode_table.json: a word is the row's if `w AND mask = pattern`. -/
structure OpcodeRow where
  mnemonic : String
  mask     : Word
  pattern  : Word
deriving DecidableEq, Repr

/-- The word is one of the row's. -/
def OpcodeRow.covers (r : OpcodeRow) (w : Word) : Bool := w &&& r.mask == r.pattern

/-- The rows of an instruction: its `mnemonic`, `mask` and `match` in spec/opcode_table.json, copied from there. -/
def Instr.row (i : Instr) : OpcodeRow :=
  match i with
  | .cls => ⟨"CLS", 0xFFFF, 0x00E0⟩
  | .ret => ⟨"RET", 0xFFFF, 0x00EE⟩
  | .jp _ => ⟨"JP_nnn", 0xF000, 0x1000⟩
  | .call _ => ⟨"CALL_nnn", 0xF000, 0x2000⟩
  | .seImm _ _ => ⟨"SE_Vx__kk", 0xF000, 0x3000⟩
  | .sneImm _ _ => ⟨"SNE_Vx__kk", 0xF000, 0x4000⟩
  | .seReg _ _ => ⟨"SE_Vx__Vy", 0xF00F, 0x5000⟩
  | .ldImm _ _ => ⟨"LD_Vx__kk", 0xF000, 0x6000⟩
  | .addImm _ _ => ⟨"ADD_Vx__kk", 0xF000, 0x7000⟩
  | .ldReg _ _ => ⟨"LD_Vx__Vy", 0xF00F, 0x8000⟩
  | .orReg _ _ => ⟨"OR_Vx__Vy", 0xF00F, 0x8001⟩
  | .andReg _ _ => ⟨"AND_Vx__Vy", 0xF00F, 0x8002⟩
  | .xorReg _ _ => ⟨"XOR_Vx__Vy", 0xF00F, 0x8003⟩
  | .addReg _ _ => ⟨"ADD_Vx__Vy", 0xF00F, 0x8004⟩
  | .subReg _ _ => ⟨"SUB_Vx__Vy", 0xF00F, 0x8005⟩
  | .shr _ _ => ⟨"SHR_Vx____Vy", 0xF00F, 0x8006⟩
  | .subnReg _ _ => ⟨"SUBN_Vx__Vy", 0xF00F, 0x8007⟩
  | .shl _ _ => ⟨"SHL_Vx____Vy", 0xF00F, 0x800E⟩
  | .sneReg _ _ => ⟨"SNE_Vx__Vy", 0xF00F, 0x9000⟩
  | .ldIndex _ => ⟨"LD_I__nnn", 0xF000, 0xA000⟩
  | .jpV0 _ => ⟨"JP_V0__nnn", 0xF000, 0xB000⟩
  | .rnd _ _ => ⟨"RND_Vx__kk", 0xF000, 0xC000⟩
  | .drw _ _ _ => ⟨"DRW_Vx__Vy__n", 0xF000, 0xD000⟩
  | .skp _ => ⟨"SKP_Vx", 0xF0FF, 0xE09E⟩
  | .sknp _ => ⟨"SKNP_Vx", 0xF0FF, 0xE0A1⟩
  | .ldFromDt _ => ⟨"LD_Vx__DT", 0xF0FF, 0xF007⟩
  | .waitKey _ => ⟨"LD_Vx__K", 0xF0FF, 0xF00A⟩
  | .setDt _ => ⟨"LD_DT__Vx", 0xF0FF, 0xF015⟩
  | .setSt _ => ⟨"LD_ST__Vx", 0xF0FF, 0xF018⟩
  | .addIndex _ => ⟨"ADD_I__Vx", 0xF0FF, 0xF01E⟩
  | .ldGlyph _ => ⟨"LD_F__Vx", 0xF0FF, 0xF029⟩
  | .bcd _ => ⟨"LD_B__Vx", 0xF0FF, 0xF033⟩
  | .storeRegs _ => ⟨"LD__I___Vx", 0xF0FF, 0xF055⟩
  | .loadRegs _ => ⟨"LD_Vx___I", 0xF0FF, 0xF065⟩

/-- One instruction of every row, in the table's order. -/
def rowSamples : List Instr :=
  [.cls, .ret, .jp 0, .call 0, .seImm 0 0, .sneImm 0 0, .seReg 0 0, .ldImm 0 0, .addImm 0 0, .ldReg 0 0, .orReg 0 0,
   .andReg 0 0, .xorReg 0 0, .addReg 0 0, .subReg 0 0, .shr 0 0, .subnReg 0 0] ++
  [.shl 0 0, .sneReg 0 0, .ldIndex 0, .jpV0 0, .rnd 0 0, .drw 0 0 0, .skp 0, .sknp 0, .ldFromDt 0, .waitKey 0, .setDt 0,
   .setSt 0, .addIndex 0, .ldGlyph 0, .bcd 0, .storeRegs 0, .loadRegs 0]

/-- The 34 rows of spec/opcode_table.json (rule R83). -/
def opcodeRows : List OpcodeRow := rowSamples.map Instr.row

end Sys2Proof
end

