-- ==== Sys2Proof/Config.lean ====
section
/-! DEFINITION. What an implementation fixes (00_scope.md rule R6), the five parameters with their defaults, and the
one free value, the random source. -/

namespace Sys2Proof

/-- The three readings of a flag instruction whose `x` or `y` is `F` (42_alu.md rule R141). -/
inductive VfAlias where
  | flagLast    -- operands latched, `V[x]` written, then `VF`
  | tableOrder  -- operands latched, the writes in the order of the opcode table's row
  | sequential  -- each assignment reads the registers as they then stand
deriving DecidableEq, Repr

/-- One digit's bitmap: 5 bytes, top row first (20_memory.md rule R58). -/
abbrev Glyph := Vector Byte 5

/-- The parameters of rule R6. They are fixed for the life of a machine (10_state.md rule R20).
DESIGN CHOICE (log entry 2): State carries them, so that one model covers every value of them. -/
structure Config where
  /-- `FONT_BASE`. -/
  fontBase         : Nat
  /-- `FONT_GLYPHS`, glyph `d` at index `d`. -/
  fontGlyphs       : Vector Glyph 16
  /-- `VF_ALIAS`. -/
  vfAlias          : VfAlias
  /-- `FETCH_ALIGN_CHECK`. -/
  fetchAlignCheck  : Bool
  /-- `FONT_WRITE_PROTECT`. -/
  fontWriteProtect : Bool
deriving DecidableEq, Repr

namespace Config

/-- `MEM_SIZE` (rule R6). -/
abbrev memSize : Nat := 4096

/-- `ADDR_MAX`, the last address (rule R6). -/
abbrev addrMax : Nat := 0xFFF

/-- `PC_RESET` and `ROM_BASE` (rule R6). -/
abbrev romBase : Nat := 0x200

/-- `ROM_MAX`: `4096 - 0x200` (rule R6). -/
abbrev romMax : Nat := 3584

/-- `GLYPH_COUNT * GLYPH_BYTES` (rule R6). -/
abbrev fontSize : Nat := 80

/-- Digits 0 to 7 of the default `FONT_GLYPHS` (20_memory.md rule R58). -/
def glyphsLow : Vector Glyph 8 :=
  #v[#v[0xF0, 0x90, 0x90, 0x90, 0xF0], #v[0x20, 0x60, 0x20, 0x20, 0x70],
     #v[0xF0, 0x10, 0xF0, 0x80, 0xF0], #v[0xF0, 0x10, 0xF0, 0x10, 0xF0],
     #v[0x90, 0x90, 0xF0, 0x10, 0x10], #v[0xF0, 0x80, 0xF0, 0x10, 0xF0],
     #v[0xF0, 0x80, 0xF0, 0x90, 0xF0], #v[0xF0, 0x10, 0x20, 0x40, 0x40]]

/-- Digits 8 to F of the default `FONT_GLYPHS` (20_memory.md rule R58). -/
def glyphsHigh : Vector Glyph 8 :=
  #v[#v[0xF0, 0x90, 0xF0, 0x90, 0xF0], #v[0xF0, 0x90, 0xF0, 0x10, 0xF0],
     #v[0xF0, 0x90, 0xF0, 0x90, 0x90], #v[0xE0, 0x90, 0xE0, 0x90, 0xE0],
     #v[0xF0, 0x80, 0x80, 0x80, 0xF0], #v[0xE0, 0x90, 0x90, 0x90, 0xE0],
     #v[0xF0, 0x80, 0xF0, 0x80, 0xF0], #v[0xF0, 0x80, 0xF0, 0x80, 0x80]]

/-- The defaults of rule R6. DESIGN CHOICE (log entry 3): the machine of `State.reset` takes them. -/
def standard : Config where
  fontBase         := 0x050
  fontGlyphs       := glyphsLow ++ glyphsHigh
  vfAlias          := .flagLast
  fetchAlignCheck  := false
  fontWriteProtect := true

/-- FREE VALUE (log entry 1): the byte of the random source at each draw, under no law (10_state.md rule R39,
92_eei_decisions.md D23). It has no body, so no proof can know a value of it. -/
opaque randByte : Nat → Byte

end Config

end Sys2Proof
end

