-- ==== Sys2Proof/Machine/State.lean ====
section
/-! DEFINITION. The state of the block (10_state.md rule R20), its reset values (rule R44), and why a transition of the
model can stop. -/

namespace Sys2Proof.Machine

/-- The display buffer `D`, `D[y][x]` (10_state.md rule R33). -/
abbrev Display := Vector (Vector Bool 64) 32

/-- The memory `M`: (address, byte) pairs. The canonical form is `Memory.wf`; an address that is not listed reads 0, the
reset content of every byte (10_state.md rule R44). -/
abbrev Memory := List Host.Cell

/-- The outcome of the most recent step (10_state.md rule R37). -/
inductive Status where
  | stepped
  | blocked
  | faulted
deriving DecidableEq, Repr

/-- The kinds of step fault (60_exceptions.md rule R211). -/
inductive FaultKind where
  | unknownInstruction
  | stackOverflow
  | stackUnderflow
  | memoryOutOfRange
  | keyIndexOutOfRange
  | fontRegionWrite
  | misalignedFetch
deriving DecidableEq, Repr

/-- The fault record `{kind, code, word, pc, addr}` (10_state.md rule R38). `code` is a function of `kind`
(`FaultKind.code`), so it is not stored twice (log entry 5). -/
structure FaultRecord where
  kind : FaultKind
  /-- The instruction word, when it was fetched. -/
  word : Option Word
  /-- The address of the faulting instruction. -/
  pc   : Word
  /-- The out-of-range or protected address, an exact integer, where the kind has one. -/
  addr : Option Nat
deriving DecidableEq, Repr

/-- The state. The first twelve fields are the spec's (10_state.md rule R20); the last three are the model's own. -/
structure State where
  /-- `V[0..15]` (rule R21). -/
  regs      : Vector Byte 16
  /-- `pc` (rule R24). -/
  pc        : Word
  /-- `I` (rule R27). -/
  index     : Word
  /-- `S[0..15]` (rule R28). -/
  stack     : Vector Word 16
  /-- `SP`, a value in `0..16` (rule R29). -/
  sp        : Fin 17
  /-- `DT` (rule R30). -/
  dt        : Byte
  /-- `ST` (rule R31). -/
  st        : Byte
  /-- `K[0..15]`, `true` is pressed (rule R32). -/
  keys      : Vector Bool 16
  /-- `D[y][x]`, `true` is set (rule R33). -/
  display   : Display
  /-- `M` (rule R34). -/
  mem       : Memory
  /-- `status` (rule R37). -/
  status    : Status
  /-- `fault`, sticky (rule R38). -/
  fault     : Option FaultRecord
  /-- The machine's configuration, which nothing changes (00_scope.md rule R6; log entry 2). -/
  cfg       : Config
  /-- How many free random bytes have been drawn: `Config.randByte draws` is the next (log entry 1). -/
  draws     : Nat
  /-- A step has run since reset, so loads are no longer admitted (70_reset_and_hazards.md rule R241; log entry 6). -/
  stepTaken : Bool
deriving DecidableEq, Repr

/-- Why an operation of the model ends without a next state as a fault. No step and no instruction ends so: a step
fault of the spec is a next state, with the record in `State.fault` (log entry 4). -/
inductive Fault where
  /-- `RomTooLarge`, code 8 (70_reset_and_hazards.md rule R244). Raised by `loadRom` alone, which writes nothing; the
  transaction `load_rom` answers it and leaves the state as it was. Safe. -/
  | romTooLarge
deriving DecidableEq, Repr

/-- Why the model gives no meaning. -/
inductive Refusal where
  /-- An instruction that is not modelled yet. No arm of `exec` answers it any more. Safe. -/
  | notModelled (mnemonic : String)
  /-- `load_font` or `load_rom` after a step has run: a model refuses it (70_reset_and_hazards.md rule R241). Raised by
  the two loads alone. Safe. -/
  | loadAfterFirstStep
  /-- `load_font` with a configuration that breaks `FONT_BASE + 80 <= 0x200`, which no machine of the spec has
  (20_memory.md rule R57). Raised by `loadFont` alone. Safe. -/
  | invalidConfiguration
deriving DecidableEq, Repr

/-- The outcome of a step or of an instruction. -/
abbrev Result := Host.Outcome State Fault Refusal

/-- The clear display (rule R44). -/
def Display.blank : Display := Vector.replicate 32 (Vector.replicate 64 false)

/-- The state after `reset` of a machine with the configuration `c`: the table of rule R44, every field. -/
def State.initial (c : Config) : State where
  regs      := Vector.replicate 16 0x00
  pc        := 0x200
  index     := 0x0000
  stack     := Vector.replicate 16 0x0000
  sp        := 0
  dt        := 0x00
  st        := 0x00
  keys      := Vector.replicate 16 false
  display   := Display.blank
  mem       := []
  status    := .stepped
  fault     := none
  cfg       := c
  draws     := 0
  stepTaken := false

/-- The state after reset of the machine with the default configuration (rule R44, 00_scope.md rule R6). -/
def State.reset : State := State.initial Config.standard

end Sys2Proof.Machine
end

