-- ==== Sys2Proof/Machine/Memory.lean ====
section
/-! DEFINITION. The primitives `MemRead` and `MemWrite` (20_memory.md rule R52) over the list of listed bytes, and its
canonical form. -/

namespace Sys2Proof.Machine

/-- What an unlisted address reads as: the reset content of every byte (10_state.md rule R44). -/
def Memory.unlisted : Byte := 0x00

/-- The canonical form: addresses strictly rising and inside the address space, no entry equal to what an unlisted
address reads as. Equal memories are then equal lists. -/
abbrev Memory.wf (m : Memory) : Prop :=
  m.Pairwise (fun c d => c.1 < d.1) ∧ ∀ c ∈ m, c.1 < Config.memSize ∧ c.2 ≠ Memory.unlisted

/-- `MemRead(a, 1)`: the byte at `a`. The spec defines it for `a <= 0xFFF` only, and every caller checks that first
(log entry 9). -/
def Memory.read (m : Memory) (a : Nat) : Byte :=
  match m with
  | [] => Memory.unlisted
  | (b, v) :: rest => if a = b then v else Memory.read rest a

/-- The entry of a byte, none where it equals what an unlisted address reads as. -/
def Memory.entry (a : Nat) (v : Byte) (rest : Memory) : Memory :=
  if v = Memory.unlisted then rest else (a, v) :: rest

/-- `MemWrite(a, 1, v)`: only the byte at `a` changes (20_memory.md rule R56). Every caller checks `a <= 0xFFF` first
(log entry 9). -/
def Memory.write (m : Memory) (a : Nat) (v : Byte) : Memory :=
  match m with
  | [] => Memory.entry a v []
  | (b, u) :: rest =>
    if a < b then Memory.entry a v ((b, u) :: rest)
    else if a = b then Memory.entry a v rest
    else (b, u) :: Memory.write rest a v

/-- Consecutive one-byte writes in increasing address order (20_memory.md rule R54). -/
def Memory.writeBytes (m : Memory) (a : Nat) (bytes : List Byte) : Memory :=
  match bytes with
  | [] => m
  | v :: rest => Memory.writeBytes (Memory.write m a v) (a + 1) rest

end Sys2Proof.Machine
end

