-- ==== Sys2Proof/Machine/Ops.lean ====
section
/-! DEFINITION. The named operations over the state that the meanings share: writes of one piece of state, the stack, the
three ways an instruction ends (completing, blocking, faulting), and the transactions of the timers and the keypad. -/

namespace Sys2Proof.Machine

/-! ### Writes of one piece of state -/

/-- `V[x] <- v`. -/
def State.setReg (s : State) (x : RegIdx) (v : Byte) : State := { s with regs := s.regs.set x v }

/-- All of `V[0..15]` at once. -/
def State.setRegs (s : State) (r : Vector Byte 16) : State := { s with regs := r }

/-- `I <- v`. -/
def State.setIndex (s : State) (v : Word) : State := { s with index := v }

/-- `DT <- v`. -/
def State.setDelay (s : State) (v : Byte) : State := { s with dt := v }

/-- `ST <- v`. -/
def State.setSound (s : State) (v : Byte) : State := { s with st := v }

/-- `D`, whole. -/
def State.setDisplay (s : State) (d : Display) : State := { s with display := d }

/-- `M`, whole. -/
def State.setMem (s : State) (m : Memory) : State := { s with mem := m }

/-- The next byte of the random source is used up (10_state.md rule R39; log entry 1). -/
def State.countDraw (s : State) : State := { s with draws := s.draws + 1 }

/-- A step has begun: from now on loads are refused (70_reset_and_hazards.md rule R241; log entry 6). -/
def State.markStep (s : State) : State := { s with stepTaken := true }

/-! ### The stack (10_state.md rules R28, R29) -/

/-- Push: `S[SP] <- v; SP <- SP + 1`, legal only when `SP < 16`. -/
def State.push (s : State) (v : Word) : Option State :=
  if h : s.sp.val < 16 then
    some { s with stack := s.stack.set s.sp.val v, sp := ⟨s.sp.val + 1, by omega⟩ }
  else none

/-- Pop: `SP <- SP - 1; v <- S[SP]`, legal only when `SP > 0`. The entry keeps its value (41_control_flow.md rule R120). -/
def State.pop (s : State) : Option (Word × State) :=
  if h : 0 < s.sp.val then
    some (s.stack[s.sp.val - 1]'(by omega), { s with sp := ⟨s.sp.val - 1, by omega⟩ })
  else none

/-! ### How an instruction ends -/

/-- The instruction completes with the given `pc`, and the step answers `Stepped` (10_state.md rules R25, R37). -/
def State.complete (s : State) (pc : Word) : State := { s with pc := pc, status := .stepped }

/-- Direct set of `pc`, with no default advance (10_state.md rule R25 (c)). -/
def State.goto (s : State) (pc : Word) : Result := .next (s.complete pc)

/-- The default advance (10_state.md rule R25 (a)). -/
def State.advance (s : State) : Result := .next (s.complete (s.pc + 2))

/-- A skip: `pc + 4` where the condition holds, else the default advance (10_state.md rule R25 (b)). The skipped word is
not fetched (30_encoding.md rule R86). -/
def State.skipIf (s : State) (c : Bool) : Result := .next (s.complete (if c then s.pc + 4 else s.pc + 2))

/-- `return Blocked`: nothing but `status` is written (60_exceptions.md rule R215). -/
def State.block (s : State) : Result := .next { s with status := .blocked }

/-- Fault entry (60_exceptions.md rule R214): the record, with `pc` the address of the faulting instruction, and the
status; nothing else is written, and `pc` keeps its value. -/
def State.enterFault (s : State) (kind : FaultKind) (word : Option Word) (addr : Option Nat) : State :=
  { s with status := .faulted, fault := some { kind := kind, word := word, pc := s.pc, addr := addr } }

/-- `raise Fault(kind, word, pc, addr)` as the end of a step (60_exceptions.md rule R214). -/
def raiseFault (kind : FaultKind) (word : Option Word) (addr : Option Nat) (s : State) : Result :=
  .next (s.enterFault kind word addr)

/-- An instruction raises a fault of its own: the recorded word is the instruction's (log entry 5). -/
def raiseOwn (i : Instr) (kind : FaultKind) (addr : Option Nat) (s : State) : Result :=
  raiseFault kind (some (encode i)) addr s

/-- The numeric code of a fault kind (60_exceptions.md rule R211). -/
def FaultKind.code (k : FaultKind) : Nat :=
  match k with
  | .unknownInstruction => 1
  | .stackOverflow => 2
  | .stackUnderflow => 3
  | .memoryOutOfRange => 4
  | .keyIndexOutOfRange => 5
  | .fontRegionWrite => 6
  | .misalignedFetch => 7

/-- The code of `RomTooLarge`, the one result of a load that is an error (70_reset_and_hazards.md rule R244). -/
def Fault.code (f : Fault) : Nat :=
  match f with
  | .romTooLarge => 8

/-- `code` of a fault record. -/
def FaultRecord.code (r : FaultRecord) : Nat := r.kind.code

/-! ### Ticks and keys -/

/-- A timer counts down by one and never below zero (60_exceptions.md rules R224, R225). -/
def countDown (t : Byte) : Byte := if t = 0 then 0 else t - 1

/-- One tick of the Timer Regulator, whatever the status is (60_exceptions.md rules R225, R227). -/
def tick (s : State) : State := { s with dt := countDown s.dt, st := countDown s.st }

/-- `set_keys(k)`: all sixteen keys at once (10_state.md rule R42). -/
def setKeys (k : Vector Bool 16) (s : State) : State := { s with keys := k }

/-! ### Placing a word where the next step fetches -/

/-- The word `w`, high byte first, at `pc` and `pc + 1` (20_memory.md rule R53). A `pc` that cannot be fetched leaves the
state as it is. -/
def State.placeWord (s : State) (w : Word) : State :=
  if s.pc.toNat ≤ 0xFFE then s.setMem (Memory.writeBytes s.mem s.pc.toNat (bytesOfWord w)) else s

end Sys2Proof.Machine
end

