-- ==== Sys2Proof/Machine/Operands.lean ====
section
/-! DEFINITION. The operand forms: registers, addresses, the one addressing mode (43_index_memory.md rule R176) with its
range and font checks, the glyph address, the key. -/

namespace Sys2Proof.Machine

/-- `V[x]` (00_scope.md rule R10). -/
def State.reg (s : State) (x : RegIdx) : Byte := s.regs[x]

/-- `zext_16(nnn)` (30_encoding.md rule R74). -/
def zextAddr (nnn : Addr) : Word := nnn.setWidth 16

/-- `zext_16(v)` of a byte. -/
def zextByte (v : Byte) : Word := v.setWidth 16

/-- The index of `VF`. -/
def vf : RegIdx := 15

/-- The effective address `I + k`, the exact integer (43_index_memory.md rule R176). -/
def State.at (s : State) (k : Nat) : Nat := s.index.toNat + k

/-- `MemRead(I + k, 1)`. -/
def State.byteAt (s : State) (k : Nat) : Byte := Memory.read s.mem (s.at k)

/-- Some of the `count` bytes at `I`.. lie above `0xFFF`. -/
def State.leavesMemory (s : State) (count : Nat) : Bool := decide (0 < count ∧ s.at (count - 1) > Config.addrMax)

/-- The lowest address above `0xFFF` that an access at `I`.. reaches: `max(I, 0x1000)` (20_memory.md rule R52). -/
def State.firstOutside (s : State) : Nat := max s.index.toNat 0x1000

/-- The `count` bytes at `I`.., `count > 0`, overlap the font region (20_memory.md rule R59). -/
def State.touchesFont (s : State) (count : Nat) : Bool :=
  decide (s.index.toNat ≤ s.cfg.fontBase + (Config.fontSize - 1) ∧ s.cfg.fontBase ≤ s.at (count - 1))

/-- The range check of an access to `count` bytes at `I`.., before its first access (20_memory.md rule R52): the
instruction `i` faults, or goes on to `ok`. -/
def checkRange (i : Instr) (count : Nat) (s : State) (ok : Result) : Result :=
  if s.leavesMemory count then raiseOwn i .memoryOutOfRange (some s.firstOutside) s else ok

/-- The checks of a store of `count` bytes at `I`..: the range, then the font region (60_exceptions.md rule R218). -/
def checkStore (i : Instr) (count : Nat) (s : State) (ok : Result) : Result :=
  checkRange i count s
    (if s.cfg.fontWriteProtect && s.touchesFont count then
      raiseOwn i .fontRegionWrite (some (max s.index.toNat s.cfg.fontBase)) s
    else ok)

/-- The instruction `i` sets `I` to the exact value `t`, or faults where `t` is above `0xFFF`, recording `t` itself
(43_index_memory.md rules R171, R172). -/
def setIndexChecked (i : Instr) (t : Nat) (s : State) : Result :=
  if t > Config.addrMax then raiseOwn i .memoryOutOfRange (some t) s
  else (s.setIndex (BitVec.ofNat 16 t)).advance

/-- The address of the glyph of digit `v`: `FONT_BASE + 5 * v`, the whole byte (43_index_memory.md rule R172). -/
def glyphAddr (c : Config) (v : Byte) : Nat := c.fontBase + 5 * v.toNat

/-- `K[k]` for a key number, none above `0xF` (44_keypad_timer.md rule R190). -/
def State.keyPressed (s : State) (k : Byte) : Option Bool :=
  if h : k.toNat < 16 then some (s.keys[k.toNat]) else none

/-- The least pressed key (44_keypad_timer.md rule R193). -/
def State.leastKey (s : State) : Option (Fin 16) := (List.finRange 16).find? (fun k => s.keys[k])

/-- The hundreds, tens and ones of a byte (43_index_memory.md rule R173). -/
def decimalDigits (v : Byte) : List Byte :=
  [BitVec.ofNat 8 (v.toNat / 100), BitVec.ofNat 8 (v.toNat / 10 % 10), BitVec.ofNat 8 (v.toNat % 10)]

/-- `V0`..`Vx`, lowest first (43_index_memory.md rule R174). -/
def State.lowRegs (s : State) (x : RegIdx) : List Byte := s.regs.toList.take (x.val + 1)

/-- The registers with `V0`..`Vx` loaded from `I`.. (43_index_memory.md rule R175). -/
def State.loadedRegs (s : State) (x : RegIdx) : Vector Byte 16 :=
  Vector.ofFn fun i => if i ≤ x then s.byteAt i.val else s.reg i

end Sys2Proof.Machine
end

