-- ==== Sys2Proof/Machine/Flags.lean ====
section
/-! DEFINITION. The flag computations (42_alu.md rule R140) and the order in which a flag instruction writes its result
and `VF` (rule R141). -/

namespace Sys2Proof.Machine

/-- `b2u` (00_scope.md rule R9). -/
def b2u (c : Bool) : Byte := if c then 1 else 0

/-- The carry out of bit 7: `b2u(a + b > 255)`, on exact integers. -/
def carryFlag (a b : Byte) : Byte := b2u (decide (a.toNat + b.toNat > 255))

/-- The inverse of the borrow of `a - b`: `b2u(a >= b)`. -/
def noBorrowFlag (a b : Byte) : Byte := b2u (decide (a.toNat ≥ b.toNat))

/-- The bit a right shift puts out: bit 0. -/
def shrFlag (a : Byte) : Byte := b2u (a.getLsbD 0)

/-- The bit a left shift puts out: bit 7. -/
def shlFlag (a : Byte) : Byte := b2u (a.getLsbD 7)

/-- The writes of `8xy4` (rule R148): the result, then the flag; the three readings coincide. -/
def writeResultThenFlag (x : RegIdx) (res flag : Byte) (r : Vector Byte 16) : Vector Byte 16 :=
  (r.set x res).set vf flag

/-- The writes of `8xy5`, `8xy6`, `8xy7`, `8xyE`, whose row lists the flag first, under the three readings of rule R141.
`res` and `flag` compute from a register file, which is the latched one but for `sequential`. -/
def writeFlagOp (reading : VfAlias) (x : RegIdx) (res flag : Vector Byte 16 → Byte) (r : Vector Byte 16) :
    Vector Byte 16 :=
  match reading with
  | .flagLast => (r.set x (res r)).set vf (flag r)
  | .tableOrder => (r.set vf (flag r)).set x (res r)
  | .sequential =>
    let r' := r.set vf (flag r)
    r'.set x (res r')

end Sys2Proof.Machine
end

