-- ==== Sys2Proof/Machine/Alu.lean ====
section
/-! DEFINITION. Immediate loads and adds, the class 8 group and the random byte (42_alu.md). -/

namespace Sys2Proof.Machine

/-- An instruction whose one effect is `V[x] <- v`, and the default advance. -/
def writeReg (x : RegIdx) (v : Byte) (s : State) : Result := (s.setReg x v).advance

/-- `6xkk` (rule R142). -/
def execLdImm (x : RegIdx) (kk : Byte) (s : State) : Result := writeReg x kk s

/-- `7xkk` (rule R143): modulo 256, no flag. -/
def execAddImm (x : RegIdx) (kk : Byte) (s : State) : Result := writeReg x (s.reg x + kk) s

/-- `8xy0` (rule R144). -/
def execLdReg (x y : RegIdx) (s : State) : Result := writeReg x (s.reg y) s

/-- `8xy1` (rule R145). -/
def execOrReg (x y : RegIdx) (s : State) : Result := writeReg x (s.reg x ||| s.reg y) s

/-- `8xy2` (rule R146). -/
def execAndReg (x y : RegIdx) (s : State) : Result := writeReg x (s.reg x &&& s.reg y) s

/-- `8xy3` (rule R147). -/
def execXorReg (x y : RegIdx) (s : State) : Result := writeReg x (s.reg x ^^^ s.reg y) s

/-- `8xy4` (rule R148). -/
def execAddReg (x y : RegIdx) (s : State) : Result :=
  (s.setRegs (writeResultThenFlag x (s.reg x + s.reg y) (carryFlag (s.reg x) (s.reg y)) s.regs)).advance

/-- A flag instruction whose row lists the flag first (rule R141). -/
def flagOp (x : RegIdx) (res flag : Vector Byte 16 → Byte) (s : State) : Result :=
  (s.setRegs (writeFlagOp s.cfg.vfAlias x res flag s.regs)).advance

/-- `8xy5` (rule R149). -/
def execSubReg (x y : RegIdx) (s : State) : Result :=
  flagOp x (fun r => r[x] - r[y]) (fun r => noBorrowFlag r[x] r[y]) s

/-- `8xy6` (rule R150): `Vx` is shifted, whatever `y` is. -/
def execShr (x _y : RegIdx) (s : State) : Result :=
  flagOp x (fun r => r[x] >>> 1) (fun r => shrFlag r[x]) s

/-- `8xy7` (rule R151). -/
def execSubnReg (x y : RegIdx) (s : State) : Result :=
  flagOp x (fun r => r[y] - r[x]) (fun r => noBorrowFlag r[y] r[x]) s

/-- `8xyE` (rule R152): `Vx` is shifted, whatever `y` is. -/
def execShl (x _y : RegIdx) (s : State) : Result :=
  flagOp x (fun r => r[x] <<< 1) (fun r => shlFlag r[x]) s

/-- `Cxkk` (rule R153) with the byte `rand` drawn for its step. -/
def execRndGiven (rand : Byte) (x : RegIdx) (kk : Byte) (s : State) : Result := writeReg x (rand &&& kk) s

/-- `Cxkk` in a step that is given no byte: the drawn byte is a free value (log entry 1). -/
def execRnd (x : RegIdx) (kk : Byte) (s : State) : Result := execRndGiven (Config.randByte s.draws) x kk s.countDraw

end Sys2Proof.Machine
end

