-- ==== Sys2Proof/Machine/ControlFlow.lean ====
section
/-! DEFINITION. Return, jumps, call and the register and immediate skips (41_control_flow.md). -/

namespace Sys2Proof.Machine

/-- `00EE` (rule R120): the popped entry, then the default advance. -/
def execRet (s : State) : Result :=
  match s.pop with
  | none => raiseOwn .ret .stackUnderflow none s
  | some (entry, popped) => popped.goto (entry + 2)

/-- `1nnn` (rule R121). -/
def execJp (nnn : Addr) (s : State) : Result := s.goto (zextAddr nnn)

/-- `2nnn` (rule R122): the entry is the address of this instruction. -/
def execCall (nnn : Addr) (s : State) : Result :=
  match s.push s.pc with
  | none => raiseOwn (.call nnn) .stackOverflow none s
  | some pushed => pushed.goto (zextAddr nnn)

/-- `3xkk` (rule R123). -/
def execSeImm (x : RegIdx) (kk : Byte) (s : State) : Result := s.skipIf (s.reg x == kk)

/-- `4xkk` (rule R124). -/
def execSneImm (x : RegIdx) (kk : Byte) (s : State) : Result := s.skipIf (s.reg x != kk)

/-- `5xy0` (rule R125). -/
def execSeReg (x y : RegIdx) (s : State) : Result := s.skipIf (s.reg x == s.reg y)

/-- `9xy0` (rule R126). -/
def execSneReg (x y : RegIdx) (s : State) : Result := s.skipIf (s.reg x != s.reg y)

/-- `Bnnn` (rule R127): the untruncated sum with `V0`. -/
def execJpV0 (nnn : Addr) (s : State) : Result := s.goto (zextAddr nnn + zextByte (s.reg 0))

end Sys2Proof.Machine
end

