-- ==== Sys2Proof/Machine/Display.lean ====
section
/-! DEFINITION. The Display Buffer's operations (40_display.md rules R100 to R103) and the instructions `00E0` and
`Dxyn`. -/

namespace Sys2Proof.Machine

/-- `clear()`: every pixel 0 (rule R101). -/
def Display.clear : Display := Vector.replicate 32 (Vector.replicate 64 false)

/-- `read(x, y)` on any coordinates, reduced first (rule R102). -/
def Display.pixel (d : Display) (x y : Nat) : Bool :=
  (d[y % 32]'(Nat.mod_lt y (by decide)))[x % 64]'(Nat.mod_lt x (by decide))

/-- `xor_write(x, y, bit)`: the new buffer, and whether the pixel went from set to unset (rule R103). -/
def Display.xorWrite (d : Display) (x y : Nat) (bit : Bool) : Display × Bool :=
  let old := d.pixel x y
  let row := (d[y % 32]'(Nat.mod_lt y (by decide))).set (x % 64) (old ^^ bit) (Nat.mod_lt x (by decide))
  (d.set (y % 32) row (Nat.mod_lt y (by decide)), old && bit)

/-- The pixel writes of one sprite row at `(x, y)`, columns `0..7`, most significant bit leftmost; the flag gathers the
collisions (rule R105). -/
def drawRow (b : Byte) (x y : Nat) (start : Display × Bool) : Display × Bool :=
  (List.range 8).foldl
    (fun acc c =>
      let (d, hit) := acc.1.xorWrite (x + c) y (b.getLsbD (7 - c))
      (d, acc.2 || hit))
    start

/-- The rows of a sprite, the first at row `y` (rule R105). -/
def drawRows (rows : List Byte) (x y : Nat) (start : Display × Bool) : Display × Bool :=
  match rows with
  | [] => start
  | b :: rest => drawRows rest x (y + 1) (drawRow b x y start)

/-- The `n` bytes of a sprite at `I`... -/
def State.spriteBytes (s : State) (n : Nat) : List Byte := (List.range n).map s.byteAt

/-- `00E0` (rule R104). -/
def execCls (s : State) : Result := (s.setDisplay Display.clear).advance

/-- `Dxyn` once its range is checked: the drawing, then `VF` (rule R105). -/
def drawSprite (x y : RegIdx) (n : Nat) (s : State) : Result :=
  let drawn := drawRows (s.spriteBytes n) (s.reg x).toNat (s.reg y).toNat (s.display, false)
  ((s.setDisplay drawn.1).setReg vf (b2u drawn.2)).advance

/-- `Dxyn` (rule R105). -/
def execDrw (x y : RegIdx) (n : Fin 16) (s : State) : Result :=
  checkRange (.drw x y n) n.val s (drawSprite x y n.val s)

end Sys2Proof.Machine
end

