-- ==== Sys2Proof/Machine/IndexMemory.lean ====
section
/-! DEFINITION. The index register and the memory instructions (43_index_memory.md). -/

namespace Sys2Proof.Machine

/-- `Annn` (rule R170). -/
def execLdIndex (nnn : Addr) (s : State) : Result := (s.setIndex (zextAddr nnn)).advance

/-- `Fx1E` (rule R171): no flag. -/
def execAddIndex (x : RegIdx) (s : State) : Result :=
  setIndexChecked (.addIndex x) (s.at (s.reg x).toNat) s

/-- `Fx29` (rule R172). -/
def execLdGlyph (x : RegIdx) (s : State) : Result :=
  setIndexChecked (.ldGlyph x) (glyphAddr s.cfg (s.reg x)) s

/-- The bytes stored at `I`.., and the default advance; `I` keeps its value. -/
def storeAtIndex (bytes : List Byte) (s : State) : Result :=
  (s.setMem (Memory.writeBytes s.mem s.index.toNat bytes)).advance

/-- `Fx33` (rule R173). -/
def execBcd (x : RegIdx) (s : State) : Result :=
  checkStore (.bcd x) 3 s (storeAtIndex (decimalDigits (s.reg x)) s)

/-- `Fx55` (rule R174). -/
def execStoreRegs (x : RegIdx) (s : State) : Result :=
  checkStore (.storeRegs x) (x.val + 1) s (storeAtIndex (s.lowRegs x) s)

/-- `Fx65` (rule R175). -/
def execLoadRegs (x : RegIdx) (s : State) : Result :=
  checkRange (.loadRegs x) (x.val + 1) s (s.setRegs (s.loadedRegs x)).advance

end Sys2Proof.Machine
end

