-- ==== Sys2Proof/Machine/KeypadTimer.lean ====
section
/-! DEFINITION. The keypad and timer instructions (44_keypad_timer.md). -/

namespace Sys2Proof.Machine

/-- A keypad skip of the instruction `i`, taken where key `V[x]` is in the state `want`; a key number above `0xF` faults
(rules R190, R191). -/
def skipOnKey (i : Instr) (x : RegIdx) (want : Bool) (s : State) : Result :=
  match s.keyPressed (s.reg x) with
  | none => raiseOwn i .keyIndexOutOfRange none s
  | some pressed => s.skipIf (pressed == want)

/-- `Ex9E` (rule R190). -/
def execSkp (x : RegIdx) (s : State) : Result := skipOnKey (.skp x) x true s

/-- `ExA1` (rule R191). -/
def execSknp (x : RegIdx) (s : State) : Result := skipOnKey (.sknp x) x false s

/-- `Fx07` (rule R192). -/
def execLdFromDt (x : RegIdx) (s : State) : Result := writeReg x s.dt s

/-- `Fx0A` (rule R193): blocked while no key is pressed, else the least pressed key; `K` is unchanged. -/
def execWaitKey (x : RegIdx) (s : State) : Result :=
  match s.leastKey with
  | none => s.block
  | some k => writeReg x (BitVec.ofNat 8 k.val) s

/-- `Fx15` (rule R194). -/
def execSetDt (x : RegIdx) (s : State) : Result := (s.setDelay (s.reg x)).advance

/-- `Fx18` (rule R195). -/
def execSetSt (x : RegIdx) (s : State) : Result := (s.setSound (s.reg x)).advance

end Sys2Proof.Machine
end

