-- ==== Sys2Proof/Machine/Fetch.lean ====
section
/-! DEFINITION. The step (30_encoding.md rule R70) over what executes an instruction, with its fetch and decoding. -/

namespace Sys2Proof.Machine

/-- What a step finds at `pc`: an instruction, or a fault of the fetch or of the decoding. -/
inductive Fetched where
  | instr (i : Instr)
  | fault (kind : FaultKind) (word : Option Word) (addr : Option Nat)
deriving DecidableEq, Repr

/-- `w <- MemRead(pc, 1) ++ MemRead(pc + 1, 1)`, big-endian (20_memory.md rule R53). -/
def State.wordAtPc (s : State) : Word :=
  wordOfBytes (Memory.read s.mem s.pc.toNat) (Memory.read s.mem (s.pc.toNat + 1))

/-- The checks of the fetch in the order of rule R70, then the decoder. -/
def State.fetch (s : State) : Fetched :=
  if s.pc.toNat > 0xFFE then .fault .memoryOutOfRange none (some (max s.pc.toNat 0x1000))
  else if s.cfg.fetchAlignCheck && s.pc.getLsbD 0 then .fault .misalignedFetch none (some s.pc.toNat)
  else
    match decodeWord s.wordAtPc with
    | some i => .instr i
    | none => .fault .unknownInstruction (some s.wordAtPc) none

/-- A step once a fault is recorded: it answers `Faulted` with that record and changes no state (60_exceptions.md rule
R216; log entry 4). -/
def stepWhenFaulted (s : State) : Result := .next s

/-- One step (30_encoding.md rule R70), `run` being what executes the instruction that it fetches. -/
def stepBy (run : Instr → State → Result) (s : State) : Result :=
  if s.fault.isSome then stepWhenFaulted s
  else
    match s.fetch with
    | .instr i => run i s.markStep
    | .fault kind word addr => raiseFault kind word addr s.markStep

end Sys2Proof.Machine
end

