-- ==== Sys2Proof/Machine/Step.lean ====
section
/-! DEFINITION. The step of the Execution Engine (30_encoding.md rule R70), and where a word for the next step is put. -/

namespace Sys2Proof.Machine

/-- One step (rule R70) that is given no byte `rand`: the byte is a free value (log entry 1). The step that is given one
is `stepGiven`. -/
def step (s : State) : Host.Outcome State Fault Refusal := stepBy exec s

/-- The state with the instruction the opcode table numbers as `w` at `pc`, so that the next step runs it (log entry 8). -/
def State.withFetchWord (s : State) (nbits w : Nat) : State := s.placeWord (tableWord nbits w)

end Sys2Proof.Machine
end

