-- ==== Sys2Proof/WellFormed.lean ====
section
/-! DEFINITION. The checks on what is given to the machine from outside. An `Instr` needs none: its operands' types are
the ranges the encoding admits, and the spec excludes no operand value (30_encoding.md rules R74, R81). -/

namespace Sys2Proof

/-- The constraint on `FONT_BASE`: `FONT_BASE + 80 <= 0x200` (20_memory.md rule R57), so that the font never overlaps
the ROM. Every other parameter takes every value of its type. -/
abbrev Config.wf (c : Config) : Prop := c.fontBase + Config.fontSize ≤ Config.romBase

/-- A ROM image fits: at most 3584 bytes (70_reset_and_hazards.md rule R243). -/
abbrev romFits (rom : List Byte) : Prop := rom.length ≤ Config.romMax

end Sys2Proof
end

