-- ==== Sys2Proof/Machine/HostInterface.lean ====
section
/-! DEFINITION. The block's interface: the atomic transactions of 10_state.md rule R40, in any order the host chooses
(60_exceptions.md rule R220). -/

namespace Sys2Proof.Machine

/-- The 80 bytes of `FONT_GLYPHS`, glyph 0 first, each top row first (20_memory.md rule R58). -/
def fontBytes (c : Config) : List Byte := (c.fontGlyphs.toList.map Vector.toList).flatten

/-- `load_font` (70_reset_and_hazards.md rule R242), not subject to the write protection. Refused after a step has run
(rule R241), and with a `FONT_BASE` that no machine of the spec has (20_memory.md rule R57; log entry 10). -/
def loadFont (s : State) : Host.Outcome State Fault Refusal :=
  if s.stepTaken then .refused .loadAfterFirstStep
  else if s.cfg.wf then .next (s.setMem (Memory.writeBytes s.mem s.cfg.fontBase (fontBytes s.cfg)))
  else .refused .invalidConfiguration

/-- `load_rom` (70_reset_and_hazards.md rule R243). Refused after a step has run (rule R241). A ROM of more than 3584
bytes is `RomTooLarge`, and nothing is written (rule R244). -/
def loadRom (rom : List Byte) (s : State) : Host.Outcome State Fault Refusal :=
  if s.stepTaken then .refused .loadAfterFirstStep
  else if romFits rom then .next (s.setMem (Memory.writeBytes s.mem Config.romBase rom))
  else .fault .romTooLarge

/-- `reset`: the creation of the machine, with its configuration; no draw of the random source is used twice
(70_reset_and_hazards.md rule R240; log entry 7). -/
def resetMachine (s : State) : State := { State.initial s.cfg with draws := s.draws }

/-- `read_display`: a copy of `D` (10_state.md rule R41). -/
def readDisplay (s : State) : Display := s.display

/-- `read_sound_timer` (10_state.md rule R43). -/
def readSoundTimer (s : State) : Byte := s.st

/-- An instruction in a step that is given the byte `rand`, which `Cxkk` alone uses (10_state.md rule R39). -/
def execGiven (rand : Byte) (i : Instr) (s : State) : Result :=
  match i with
  | .rnd x kk => execRndGiven rand x kk s
  | .cls | .ret | .jp _ | .call _ | .seImm _ _ | .sneImm _ _ | .seReg _ _ | .ldImm _ _ | .addImm _ _ | .ldReg _ _
  | .orReg _ _ | .andReg _ _ | .xorReg _ _ | .addReg _ _ | .subReg _ _ | .shr _ _ | .subnReg _ _ | .shl _ _
  | .sneReg _ _ | .ldIndex _ | .jpV0 _ | .drw _ _ _ | .skp _ | .sknp _ | .ldFromDt _ | .waitKey _ | .setDt _
  | .setSt _ | .addIndex _ | .ldGlyph _ | .bcd _ | .storeRegs _ | .loadRegs _ => exec i s

/-- `step(rand)` (30_encoding.md rule R70): one step with the byte drawn for it. -/
def stepGiven (rand : Byte) (s : State) : Result := stepBy (execGiven rand) s

/-- The transactions of rule R40, each with its inputs. -/
inductive Transaction where
  | reset
  | loadFont
  | loadRom (rom : List Byte)
  | step (rand : Byte)
  | tick
  | setKeys (k : Vector Bool 16)
  | readDisplay
  | readSoundTimer
deriving DecidableEq, Repr

/-- The outputs of rule R40. -/
inductive Response where
  /-- No output. -/
  | nothing
  /-- `Ok` of `load_rom`. -/
  | ok
  /-- `RomTooLarge` of `load_rom`, code 8. -/
  | romTooLarge
  /-- The status of a step, with the fault record if it is `Faulted` (60_exceptions.md rule R213). -/
  | stepStatus (status : Status) (fault : Option FaultRecord)
  /-- The display snapshot. -/
  | display (d : Display)
  /-- The sound timer. -/
  | soundTimer (v : Byte)
deriving DecidableEq, Repr

/-- A transaction that answers `r` and leaves the state `o` gives. -/
def answering (r : Response) (o : Result) : Host.Outcome (Response × State) Fault Refusal :=
  match o with
  | .next t => .next (r, t)
  | .fault f => .fault f
  | .refused f => .refused f

/-- The step as a transaction: its output is the status it leaves and the record, if faulted. -/
def answerStep (o : Result) : Host.Outcome (Response × State) Fault Refusal :=
  match o with
  | .next t => .next (.stepStatus t.status t.fault, t)
  | .fault f => .fault f
  | .refused f => .refused f

/-- `load_rom` as a transaction: `Ok` with the ROM loaded, or `RomTooLarge` with the state as it was (rule R244). -/
def answerLoadRom (s : State) (o : Result) : Host.Outcome (Response × State) Fault Refusal :=
  match o with
  | .next t => .next (.ok, t)
  | .fault .romTooLarge => .next (.romTooLarge, s)
  | .refused f => .refused f

/-- One transaction: its output and the state after it. -/
def transact (t : Transaction) (s : State) : Host.Outcome (Response × State) Fault Refusal :=
  match t with
  | .reset => .next (.nothing, resetMachine s)
  | .loadFont => answering .nothing (loadFont s)
  | .loadRom rom => answerLoadRom s (loadRom rom s)
  | .step rand => answerStep (stepGiven rand s)
  | .tick => .next (.nothing, Sys2Proof.Machine.tick s)
  | .setKeys k => .next (.nothing, Sys2Proof.Machine.setKeys k s)
  | .readDisplay => .next (.display (Sys2Proof.Machine.readDisplay s), s)
  | .readSoundTimer => .next (.soundTimer (Sys2Proof.Machine.readSoundTimer s), s)

/-- A sequence of transactions, one after another, stopping at the first that the model refuses: every interleaving the
host may choose (60_exceptions.md rule R220). -/
def transactAll (ts : List Transaction) (s : State) : Result :=
  match ts with
  | [] => .next s
  | t :: rest =>
    match transact t s with
    | .next (_, s') => transactAll rest s'
    | .fault f => .fault f
    | .refused f => .refused f

/-- Boot (70_reset_and_hazards.md rule R241): reset, the font, the ROM. -/
def bootSequence (rom : List Byte) : List Transaction := [.reset, .loadFont, .loadRom rom]

end Sys2Proof.Machine
end

