-- ==== Sys2Proof/Safety.lean ====
section
/-! DEFINITION. What claims are stated in: the invariant of the machine, what a fault record says, what an instruction
leaves alone, and the words of the opcode table's patterns. -/

namespace Sys2Proof.Machine

/-! ### The invariant -/

/-- The fault record is one that 60_exceptions.md rule R211 allows its kind: what raised it, and which of `word` and
`addr` are recorded. -/
def FaultRecord.wellRecorded (c : Config) (r : FaultRecord) : Prop :=
  match r.kind with
  | .unknownInstruction => (∃ w, r.word = some w ∧ decodeWord w = none) ∧ r.addr = none
  | .stackOverflow => (∃ nnn, r.word = some (encode (.call nnn))) ∧ r.addr = none
  | .stackUnderflow => r.word = some (encode .ret) ∧ r.addr = none
  | .memoryOutOfRange => (r.word = none ↔ 0xFFE < r.pc.toNat) ∧ ∃ a, r.addr = some a ∧ Config.addrMax < a
  | .keyIndexOutOfRange => (∃ x, r.word = some (encode (.skp x)) ∨ r.word = some (encode (.sknp x))) ∧ r.addr = none
  | .fontRegionWrite =>
    (∃ x, r.word = some (encode (.bcd x)) ∨ r.word = some (encode (.storeRegs x))) ∧ c.fontWriteProtect = true ∧
      ∃ a, r.addr = some a ∧ c.fontBase ≤ a ∧ a < c.fontBase + Config.fontSize
  | .misalignedFetch =>
    r.word = none ∧ r.addr = some r.pc.toNat ∧ r.pc.getLsbD 0 = true ∧ c.fetchAlignCheck = true

/-- What holds at every moment between two transactions. -/
structure State.Inv (s : State) : Prop where
  /-- The memory keeps its canonical form, inside the 4096 bytes (20_memory.md rule R50). -/
  memCanonical : Memory.wf s.mem
  /-- The font lies below the ROM (20_memory.md rule R57). -/
  configWf : s.cfg.wf
  /-- `I <= 0xFFF` (10_state.md rule R27). -/
  indexInMemory : s.index.toNat ≤ 0xFFF
  /-- `pc` never exceeds `0x10FE` (10_state.md rule R26). -/
  pcBound : s.pc.toNat ≤ 0x10FE
  /-- A stacked value is a `pc` that fetched (41_control_flow.md rule R120). -/
  stackFetched : ∀ k : Fin 16, k.val < s.sp.val → (s.stack[k]).toNat ≤ 0xFFE
  /-- `status` is `Faulted` exactly while a fault is recorded (60_exceptions.md rules R213, R214, R216). -/
  faultStatus : s.status = .faulted ↔ s.fault.isSome = true
  /-- The record's `pc` is the value `pc` keeps (60_exceptions.md rule R214). -/
  faultPc : ∀ r, s.fault = some r → r.pc = s.pc
  /-- The record says what its kind's row of rule R211 says. -/
  faultRecorded : ∀ r, s.fault = some r → r.wellRecorded s.cfg
  /-- The recorded word is the word that stands at `pc` (60_exceptions.md rule R211). -/
  faultWord : ∀ r w, s.fault = some r → r.word = some w → s.wordAtPc = w
  /-- A blocked machine stands at an `Fx0A` that it fetches again (70_reset_and_hazards.md rule R252). -/
  blockedAtWait : s.status = .blocked → ∃ x, s.fetch = .instr (.waitKey x)
  /-- Before the first step nothing has blocked or faulted (10_state.md rule R44). -/
  beforeFirstStep : s.stepTaken = false → s.status = .stepped ∧ s.fault = none

/-- The font stands in memory as `load_font` puts it: glyph `d` at `FONT_BASE + 5*d`, top row first (20_memory.md rule
R58). -/
def State.fontLoaded (s : State) : Prop :=
  ∀ (d : Fin 16) (k : Fin 5), Memory.read s.mem (s.cfg.fontBase + 5 * d.val + k.val) = s.cfg.fontGlyphs[d][k]

/-! ### Steps and runs -/

/-- Whatever byte is drawn for it, given or free, a step of `s` leads to `t`. -/
def StepsTo (s t : State) : Prop := step s = .next t ∧ ∀ rand, stepGiven rand s = .next t

/-- A step of `s`, with some byte given or with the free one, leads to `t`. -/
def MayStep (s t : State) : Prop := step s = .next t ∨ ∃ rand, stepGiven rand s = .next t

/-- No step of the sequence `ts` of transactions, from `s`, runs an instruction of which `p` holds. -/
def NeverRuns (p : Instr → Prop) (ts : List Transaction) (s : State) : Prop :=
  match ts with
  | [] => True
  | x :: rest =>
    (∀ rand i, x = .step rand → s.fault = none → s.fetch = .instr i → ¬p i) ∧
    ∀ r t, transact x s = .next (r, t) → NeverRuns p rest t

/-- The run has halted (70_reset_and_hazards.md rule R247 a): the status is `Stepped` and what stands at `pc` is a jump
to itself. The machine goes on stepping it. -/
def State.Halted (s : State) : Prop :=
  s.status = .stepped ∧ ∃ nnn, s.fetch = .instr (.jp nnn) ∧ nnn.toNat = s.pc.toNat

/-! ### Frames -/

/-- A piece of state that an instruction may write. `pc` and `status` are written by every instruction that ends; the
keypad, the fault record, the configuration and the mark of the first step are written by no instruction that completes. -/
inductive Piece where
  | regs
  | index
  | stack
  | delay
  | sound
  | display
  | mem
  | draws
deriving DecidableEq, Repr

/-- `t` agrees with `s` on every piece of state but `pc`, `status` and the pieces `w`. Memory is compared byte by byte. -/
def LeavesAllBut (w : List Piece) (s t : State) : Prop :=
  (Piece.regs ∉ w → ∀ k, t.reg k = s.reg k) ∧
  (Piece.index ∉ w → t.index = s.index) ∧
  (Piece.stack ∉ w → t.sp = s.sp ∧ t.stack = s.stack) ∧
  (Piece.delay ∉ w → t.dt = s.dt) ∧
  (Piece.sound ∉ w → t.st = s.st) ∧
  (Piece.display ∉ w → t.display = s.display) ∧
  (Piece.mem ∉ w → ∀ a, Memory.read t.mem a = Memory.read s.mem a) ∧
  (Piece.draws ∉ w → t.draws = s.draws) ∧
  t.keys = s.keys ∧ t.fault = s.fault ∧ t.cfg = s.cfg ∧ t.stepTaken = s.stepTaken

/-- The instruction completes: `exec` answers a next state, with the status `Stepped`, of which `P` holds. -/
def Completes (i : Instr) (s : State) (P : State → Prop) : Prop :=
  ∃ t, exec i s = .next t ∧ t.status = .stepped ∧ P t

/-- The instruction faults: `exec` answers the state `s` with the status `Faulted` and this record at `s.pc`, and nothing
else changed (60_exceptions.md rules R214, R215). -/
def Faults (i : Instr) (s : State) (kind : FaultKind) (word : Word) (addr : Option Nat) : Prop :=
  exec i s = .next { s with status := .faulted, fault := some ⟨kind, some word, s.pc, addr⟩ }

/-! ### Words of the patterns -/

/-- A register index as the nibble `x` or `y` of a pattern. -/
def nib (x : Fin 16) : BitVec 4 := BitVec.ofNat 4 x.val

/-- The word of a pattern `cnnn`. -/
abbrev patNnn (c : BitVec 4) (nnn : Addr) : Word := c ++ nnn

/-- The word of a pattern `cxkk`. -/
abbrev patXkk (c : BitVec 4) (x : RegIdx) (kk : Byte) : Word := c ++ nib x ++ kk

/-- The word of a pattern `cxyn`. -/
abbrev patXyn (c : BitVec 4) (x y : RegIdx) (n : BitVec 4) : Word := c ++ nib x ++ nib y ++ n

/-- The registers `new` after a flag instruction whose opcode row lists the flag first, from the registers `old`, under
each reading of 42_alu.md rule R141: `res` computes the result from the registers that the reading gives it. -/
def FlagFirstWrites (reading : VfAlias) (x : RegIdx) (res : (RegIdx → Byte) → Byte) (flag : Byte)
    (old new : RegIdx → Byte) : Prop :=
  match reading with
  | .flagLast => ∀ k, new k = if k = 15 then flag else if k = x then res old else old k
  | .tableOrder => ∀ k, new k = if k = x then res old else if k = 15 then flag else old k
  | .sequential =>
    ∀ k, new k =
      if k = x then res (fun j => if j = 15 then flag else old j) else if k = 15 then flag else old k

/-- The sprite of `n` rows at `(V[x], V[y])` has a set bit that lands on the pixel `(px, py)` (40_display.md rules R105,
R106). -/
def SpriteSets (s : State) (x y : RegIdx) (n px py : Nat) : Prop :=
  ∃ r c, r < n ∧ c < 8 ∧ ((s.reg x).toNat + c) % 64 = px ∧ ((s.reg y).toNat + r) % 32 = py ∧
    (Memory.read s.mem (s.at r)).getLsbD (7 - c) = true

/-- `t` differs from `s` at most in stack entries that are not on the stack. -/
def SameButDeadStack (s t : State) : Prop :=
  t = { s with stack := t.stack } ∧ ∀ k : Fin 16, k.val < s.sp.val → t.stack[k] = s.stack[k]

/-- A word that is no instruction: 30_encoding.md rules R76 to R80, by the number of the word. -/
def Unrecognised (w : Word) : Prop :=
  (w.toNat / 4096 = 0x0 ∧ w.toNat ≠ 0x00E0 ∧ w.toNat ≠ 0x00EE) ∨
  ((w.toNat / 4096 = 0x5 ∨ w.toNat / 4096 = 0x9) ∧ w.toNat % 16 ≠ 0) ∨
  (w.toNat / 4096 = 0x8 ∧ w.toNat % 16 ∈ [0x8, 0x9, 0xA, 0xB, 0xC, 0xD, 0xF]) ∨
  (w.toNat / 4096 = 0xE ∧ w.toNat % 256 ∉ [0x9E, 0xA1]) ∨
  (w.toNat / 4096 = 0xF ∧ w.toNat % 256 ∉ [0x07, 0x0A, 0x15, 0x18, 0x1E, 0x29, 0x33, 0x55, 0x65])

/-- The instructions that name `VF` as a flag or, through `x`, as a destination (10_state.md rules R21, R22). -/
def writesVf (i : Instr) : Bool :=
  match i with
  | .addReg _ _ | .subReg _ _ | .shr _ _ | .subnReg _ _ | .shl _ _ | .drw _ _ _ => true
  | .ldImm x _ | .addImm x _ | .ldReg x _ | .orReg x _ | .andReg x _ | .xorReg x _ | .rnd x _ | .ldFromDt x
  | .waitKey x | .loadRegs x => decide (x = 15)
  | .cls | .ret | .jp _ | .call _ | .seImm _ _ | .sneImm _ _ | .seReg _ _ | .sneReg _ _ | .ldIndex _ | .jpV0 _
  | .skp _ | .sknp _ | .setDt _ | .setSt _ | .addIndex _ | .ldGlyph _ | .bcd _ | .storeRegs _ => false

/-- How many words of an opcode class the decoder recognises. -/
def recognisedInClass (c : Nat) : Nat :=
  ((List.range 4096).filter fun k => (decodeWord (BitVec.ofNat 16 (4096 * c + k))).isSome).length

/-- The instructions that can never fault once decoded (60_exceptions.md rule R212). -/
def neverFaults (i : Instr) : Bool :=
  match i with
  | .cls | .jp _ | .seImm _ _ | .sneImm _ _ | .seReg _ _ | .ldImm _ _ | .addImm _ _ | .ldReg _ _ | .orReg _ _
  | .andReg _ _ | .xorReg _ _ | .addReg _ _ | .subReg _ _ | .shr _ _ | .subnReg _ _ | .shl _ _ | .sneReg _ _
  | .ldIndex _ | .jpV0 _ | .rnd _ _ | .ldFromDt _ | .waitKey _ | .setDt _ | .setSt _ => true
  | .ret | .call _ | .drw _ _ _ | .skp _ | .sknp _ | .addIndex _ | .ldGlyph _ | .bcd _ | .storeRegs _
  | .loadRegs _ => false

end Sys2Proof.Machine
end

