-- ==== Sys2Proof/Certificates/Slice0/Obligations.lean ====
section
/-! DEFINITION. The statements for the provers, in the order of OBLIGATIONS.json. Each cites the rule of spec/ it
formalises; what rests on the model's own choice says so and names its log entry. -/

open Sys2Proof Sys2Proof.Machine

/-! ### Encoding -/

/-- No bit of an encoding is dropped: every instruction, with every operand, decodes from its own word
(30_encoding.md, the format table of rule R73). -/
def Obligations.EncodedInstructionsDecodeToThemselves : Prop :=
  ∀ i : Instr, decodeWord (encode i) = some i

/-- The other direction: a recognised word is the encoding of what it decodes to, so each instruction has one word. -/
def Obligations.DecodedWordsAreTheirInstructionsEncodings : Prop :=
  ∀ (w : Word) (i : Instr), decodeWord w = some i → encode i = w

/-- Rule R84: the unrecognised words are those that rules R76 to R80 leave out, and a step that fetches one raises
`UnknownInstruction` with the word and its address, writes nothing else and leaves `pc` at the word. That the mark
`stepTaken` is set is the model's own choice (log entry 6). -/
def Obligations.UnrecognisedWordsRaiseUnknownInstruction : Prop :=
  (∀ w : Word, decodeWord w = none ↔ Unrecognised w) ∧
  ∀ (s : State) (w : Word), s.fault = none → s.pc.toNat ≤ 0xFFE →
    (s.cfg.fetchAlignCheck = true → s.pc.toNat % 2 = 0) →
    Memory.read s.mem s.pc.toNat ++ Memory.read s.mem (s.pc.toNat + 1) = w → Unrecognised w →
    StepsTo s { s with status := .faulted, stepTaken := true,
                       fault := some ⟨.unknownInstruction, some w, s.pc, none⟩ }

/-- Rule R83: every word is an instruction or `Unknown`, and no two rows of the opcode table match one word: the rows
that match are one, the decoded instruction's, or none. -/
def Obligations.EveryWordMatchesAtMostOneOpcodeRow : Prop :=
  ∀ w : Word, opcodeRows.filter (fun r => r.covers w) = (decodeWord w).toList.map Instr.row

/-- Rule R82: how many words of each class are instructions, and how many in all. -/
def Obligations.RecognisedWordsOfEachClassAreCounted : Prop :=
  (∀ c ∈ [0x1, 0x2, 0x3, 0x4, 0x6, 0x7, 0xA, 0xB, 0xC, 0xD], recognisedInClass c = 4096) ∧
  recognisedInClass 0x0 = 2 ∧ recognisedInClass 0x5 = 256 ∧ recognisedInClass 0x8 = 2304 ∧
  recognisedInClass 0x9 = 256 ∧ recognisedInClass 0xE = 32 ∧ recognisedInClass 0xF = 144 ∧
  ((List.range 16).map recognisedInClass).sum = 43954 ∧ 65536 - ((List.range 16).map recognisedInClass).sum = 21582

/-- One word of every format, written out from its pattern (rule R73), decodes to the instruction it stands for. -/
def Obligations.WordsWrittenOutFromThePatternsDecode : Prop :=
  decodeWord 0b0000000011100000#16 = some .cls ∧
  decodeWord 0b1010000100100011#16 = some (.ldIndex 0x123) ∧
  decodeWord 0b0110101001011100#16 = some (.ldImm 10 0x5C) ∧
  decodeWord 0b1000101010110110#16 = some (.shr 10 11) ∧
  decodeWord 0b1101000100101111#16 = some (.drw 1 2 15) ∧
  decodeWord 0b1111001101100101#16 = some (.loadRegs 3)

/-! ### The step and its faults -/

/-- Rule R70: with no fault recorded, a fetchable `pc`, and bytes at `pc` that decode to `i`, the step is `exec i`, and
the step that is given the byte `rand` is `execGiven rand i`. What each adds is the model's mark that a step has run (log
entry 6). The step that is given no byte is one that is given some byte, but for the model's count of free draws (log
entry 1). -/
def Obligations.StepRunsTheDecodedInstruction : Prop :=
  (∀ (s : State) (i : Instr), s.fault = none → s.pc.toNat ≤ 0xFFE →
    (s.cfg.fetchAlignCheck = true → s.pc.toNat % 2 = 0) →
    decodeWord (Memory.read s.mem s.pc.toNat ++ Memory.read s.mem (s.pc.toNat + 1)) = some i →
    step s = exec i { s with stepTaken := true } ∧
    ∀ rand, stepGiven rand s = execGiven rand i { s with stepTaken := true }) ∧
  ∀ s : State, ∃ rand t n, stepGiven rand s = .next t ∧ step s = .next { t with draws := n }

/-- Rule R218, the order of faults: (1) a recorded fault, no new one; (2) the range of the fetch, before (3) its
alignment, before (4) the unknown word, before (5) the instruction's own, where `Fx33` and `Fx55` report the range before
the font; every other instruction has at most one kind of its own. That clauses 2 to 4 set the mark `stepTaken` is the
model's own choice (log entry 6). -/
def Obligations.FaultsAreReportedInPriorityOrder : Prop :=
  (∀ s : State, s.fault ≠ none → StepsTo s s) ∧
  (∀ s : State, s.fault = none → 0xFFE < s.pc.toNat →
    StepsTo s { s with status := .faulted, stepTaken := true,
                       fault := some ⟨.memoryOutOfRange, none, s.pc, some (max s.pc.toNat 0x1000)⟩ }) ∧
  (∀ s : State, s.fault = none → s.pc.toNat ≤ 0xFFE → s.cfg.fetchAlignCheck = true → s.pc.toNat % 2 = 1 →
    StepsTo s { s with status := .faulted, stepTaken := true,
                       fault := some ⟨.misalignedFetch, none, s.pc, some s.pc.toNat⟩ }) ∧
  (∀ s : State, s.fault = none → s.pc.toNat ≤ 0xFFE → (s.cfg.fetchAlignCheck = true → s.pc.toNat % 2 = 0) →
    decodeWord s.wordAtPc = none →
    StepsTo s { s with status := .faulted, stepTaken := true,
                       fault := some ⟨.unknownInstruction, some s.wordAtPc, s.pc, none⟩ }) ∧
  (∀ (x : RegIdx) (s : State), 0xFFF < s.index.toNat + 2 →
    Faults (.bcd x) s .memoryOutOfRange (encode (.bcd x)) (some (max s.index.toNat 0x1000))) ∧
  (∀ (x : RegIdx) (s : State), 0xFFF < s.index.toNat + x.val →
    Faults (.storeRegs x) s .memoryOutOfRange (encode (.storeRegs x)) (some (max s.index.toNat 0x1000))) ∧
  (∀ i : Instr, (∀ x, i ≠ .bcd x ∧ i ≠ .storeRegs x) → ∃ kind : FaultKind, ∀ (s t : State) (r : FaultRecord),
    s.fault = none → exec i s = .next t → t.fault = some r → r.kind = kind)

/-- Rule R215: a step that faults or blocks writes no register, no memory byte, no pixel, no stack entry, no timer and no
`pc`, only `status` and, if it faults, `fault`, whose `pc` is the address of the instruction. That the mark `stepTaken` is
set is the model's own choice (log entry 6). -/
def Obligations.FaultingAndBlockedStepsWriteNothingElse : Prop :=
  ∀ s t : State, s.fault = none → MayStep s t → t.status ≠ .stepped →
    t = { s with status := t.status, fault := t.fault, stepTaken := true } ∧
    (t.status = .blocked → t.fault = none) ∧
    (t.status = .faulted → ∃ r, t.fault = some r ∧ r.pc = s.pc)

/-- Rule R216: once a fault is recorded a step returns `Faulted` with the same record and changes no state, no sequence of
transactions without a `reset` removes the record or changes a register, `pc`, memory or the display, and `reset` clears
it. -/
def Obligations.ARecordedFaultIsStickyUntilReset : Prop :=
  (∀ (s : State) (rand : Byte), s.Inv → s.fault ≠ none →
    transact (.step rand) s = .next (.stepStatus .faulted s.fault, s)) ∧
  (∀ (ts : List Transaction) (s t : State), s.Inv → s.fault ≠ none → Transaction.reset ∉ ts →
    transactAll ts s = .next t →
    t.fault = s.fault ∧ t.status = .faulted ∧ t.regs = s.regs ∧ t.pc = s.pc ∧ t.index = s.index ∧ t.sp = s.sp ∧
      t.stack = s.stack ∧ t.display = s.display ∧ t.mem = s.mem) ∧
  (∀ s : State, ∃ t, transact .reset s = .next (.nothing, t) ∧ t.fault = none)

/-- Rule R213: every step answers, with exactly one status: `Blocked` when it fetched an `Fx0A` and no key is pressed,
`Faulted` when a fault is recorded after it, `Stepped` otherwise; `status` holds the value returned. The status is the
same whatever byte is drawn. -/
def Obligations.EveryStepReturnsExactlyOneStatus : Prop :=
  ∀ (s : State) (rand : Byte), s.Inv → ∃ t u, step s = .next u ∧ u.status = t.status ∧ u.fault = t.fault ∧
    transact (.step rand) s = .next (.stepStatus t.status t.fault, t) ∧
    (t.status = .blocked ↔
      s.fault = none ∧ (∃ x, s.fetch = .instr (.waitKey x)) ∧ ∀ k : Fin 16, s.keys[k] = false) ∧
    (t.status = .faulted ↔ t.fault ≠ none) ∧
    (t.status = .stepped ↔ t.fault = none ∧
      ¬((∃ x, s.fetch = .instr (.waitKey x)) ∧ ∀ k : Fin 16, s.keys[k] = false))

/-- Rule R212: the instructions that can never fault once decoded; `Fx29` at the default `FONT_BASE`. -/
def Obligations.NeverFaultingInstructionsRecordNoFault : Prop :=
  (∀ (i : Instr) (s : State), neverFaults i = true →
    ∃ t, exec i s = .next t ∧ t.fault = s.fault ∧ t.status ≠ .faulted) ∧
  ∀ (x : RegIdx) (s : State), s.cfg.fontBase = 0x050 →
    ∃ t, exec (.ldGlyph x) s = .next t ∧ t.fault = s.fault ∧ t.status = .stepped

/-- Rule R25: an instruction that completes updates `pc` by the default advance, by a skip, or directly; `00EE` takes
the popped entry and then the default advance; one that faults or blocks leaves `pc`. -/
def Obligations.TheProgramCounterMovesInThreeWays : Prop :=
  ∀ (i : Instr) (s t : State), exec i s = .next t →
    (t.status ≠ .stepped → t.pc = s.pc) ∧
    (t.status = .stepped →
      match i with
      | .jp nnn | .call nnn => t.pc.toNat = nnn.toNat
      | .jpV0 nnn => t.pc.toNat = nnn.toNat + (s.reg 0).toNat
      | .ret => ∃ k : Fin 16, k.val + 1 = s.sp.val ∧ t.pc = s.stack[k] + 2
      | .seImm x kk => t.pc = if s.reg x = kk then s.pc + 4 else s.pc + 2
      | .sneImm x kk => t.pc = if s.reg x ≠ kk then s.pc + 4 else s.pc + 2
      | .seReg x y => t.pc = if s.reg x = s.reg y then s.pc + 4 else s.pc + 2
      | .sneReg x y => t.pc = if s.reg x ≠ s.reg y then s.pc + 4 else s.pc + 2
      | .skp x => ∃ k : Fin 16, k.val = (s.reg x).toNat ∧ t.pc = if s.keys[k] = true then s.pc + 4 else s.pc + 2
      | .sknp x => ∃ k : Fin 16, k.val = (s.reg x).toNat ∧ t.pc = if s.keys[k] = false then s.pc + 4 else s.pc + 2
      | _ => t.pc = s.pc + 2)

/-- Whole-machine rules: each piece of state is written only by the instructions that the rule of that piece names
(10_state.md rules R27 to R33; 20_memory.md rule R50 for memory), and no instruction writes the keypad. That the count of
draws is one of `Cxkk` alone, and that the configuration stands in the state and is kept, rest on the model's own choices
(log entries 1 and 2, of rules R39 and R20). -/
def Obligations.EachPieceIsWrittenOnlyByItsInstructions : Prop :=
  ∀ (i : Instr) (s t : State), exec i s = .next t →
    (t.index ≠ s.index → (∃ nnn, i = .ldIndex nnn) ∨ ∃ x, i = .addIndex x ∨ i = .ldGlyph x) ∧
    (t.stack ≠ s.stack → ∃ nnn, i = .call nnn) ∧
    (t.sp ≠ s.sp → (∃ nnn, i = .call nnn) ∨ i = .ret) ∧
    (t.dt ≠ s.dt → ∃ x, i = .setDt x) ∧
    (t.st ≠ s.st → ∃ x, i = .setSt x) ∧
    (t.display ≠ s.display → i = .cls ∨ ∃ x y n, i = .drw x y n) ∧
    (t.mem ≠ s.mem → ∃ x, i = .bcd x ∨ i = .storeRegs x) ∧
    (t.draws ≠ s.draws → ∃ x kk, i = .rnd x kk) ∧
    t.keys = s.keys ∧ t.cfg = s.cfg ∧ (t.fault ≠ s.fault → t.status = .faulted)

/-- `VF` changes only under an instruction that writes it as a flag or names it as its destination (10_state.md rule
R22). -/
def Obligations.VfIsWrittenOnlyAsFlagOrDestination : Prop :=
  ∀ (i : Instr) (s t : State), exec i s = .next t → t.reg 15 ≠ s.reg 15 → writesVf i = true

/-! ### Reset, boot and the invariant -/

/-- Rule R44: every piece of state after `reset`, of the machine's first state and after the transaction. -/
def Obligations.ResetLeavesTheResetValues : Prop :=
  ∀ s t : State, (t = State.reset ∨ transact .reset s = .next (.nothing, t)) →
    (∀ k, t.reg k = 0x00) ∧ t.pc = 0x200 ∧ t.index = 0x0000 ∧ (∀ k : Fin 16, t.stack[k] = 0x0000) ∧ t.sp = 0 ∧
    t.dt = 0x00 ∧ t.st = 0x00 ∧ (∀ k : Fin 16, t.keys[k] = false) ∧ (∀ x y, t.display.pixel x y = false) ∧
    (∀ a, a ≤ 0xFFF → Memory.read t.mem a = 0x00) ∧ t.status = .stepped ∧ t.fault = none

/-- The invariant holds at reset. The default configuration is the model's choice for reset (log entry 3). -/
def Obligations.ResetMeetsTheInvariant : Prop := State.reset.Inv

/-- Every step keeps the invariant: canonical memory, `I <= 0xFFF` (rule R27), `pc <= 0x10FE` (rule R26), stacked values
that fetched (rule R120), status and fault record consistent (rules R211, R214). -/
def Obligations.EveryStepKeepsTheInvariant : Prop :=
  ∀ s t : State, s.Inv → step s = .next t → t.Inv

/-- Every sequence of transactions, in whatever order the host chooses (rule R220), keeps the invariant and the
configuration. That a `reset` may stand in it, and keeps the configuration, is the model's choice (log entry 7). -/
def Obligations.EveryInterleavingKeepsTheInvariant : Prop :=
  ∀ (ts : List Transaction) (s t : State), s.Inv → transactAll ts s = .next t → t.Inv ∧ t.cfg = s.cfg

/-- The font is "Immutable after load": with `FONT_WRITE_PROTECT`, a font that stands in memory stands there after every
sequence of transactions without a `reset` (20_memory.md rule R59). -/
def Obligations.TheLoadedFontSurvivesEveryInterleaving : Prop :=
  ∀ (ts : List Transaction) (s t : State), s.Inv → s.cfg.fontWriteProtect = true → s.fontLoaded →
    Transaction.reset ∉ ts → transactAll ts s = .next t → t.fontLoaded

/-- The clean launch state (rules R241, R246): boot answers, with every field at its reset value but memory, which holds
the font at `FONT_BASE`, the ROM at `0x200` and 0 elsewhere. That `reset` keeps the configuration and the count of draws
is the model's choice (log entry 7). -/
def Obligations.BootLeavesTheCleanLaunchState : Prop :=
  ∀ (rom : List Byte) (s : State), s.cfg.wf → rom.length ≤ 3584 →
    ∃ t, transactAll (bootSequence rom) s = .next t ∧
      t = { State.initial s.cfg with mem := t.mem, draws := s.draws } ∧ t.fontLoaded ∧
      (∀ k : Fin rom.length, Memory.read t.mem (0x200 + k.val) = rom[k]) ∧
      ∀ a, ¬(s.cfg.fontBase ≤ a ∧ a < s.cfg.fontBase + 80) → ¬(0x200 ≤ a ∧ a < 0x200 + rom.length) →
        Memory.read t.mem a = 0x00

/-- Rules R242, R243: before the first step, `load_font` writes the 80 glyph bytes and `load_rom` copies the ROM verbatim
to `0x200`.., each writing nothing else; a ROM of more than 3584 bytes is `RomTooLarge` with nothing written. -/
def Obligations.LoadsWriteExactlyTheirBytes : Prop :=
  ∀ (rom : List Byte) (s : State), s.Inv → s.stepTaken = false →
    (∃ t, transact .loadFont s = .next (.nothing, t) ∧ t = { s with mem := t.mem } ∧ t.fontLoaded ∧
      ∀ a, ¬(s.cfg.fontBase ≤ a ∧ a < s.cfg.fontBase + 80) → Memory.read t.mem a = Memory.read s.mem a) ∧
    (rom.length ≤ 3584 → ∃ t, transact (.loadRom rom) s = .next (.ok, t) ∧ t = { s with mem := t.mem } ∧
      (∀ k : Fin rom.length, Memory.read t.mem (0x200 + k.val) = rom[k]) ∧
      ∀ a, ¬(0x200 ≤ a ∧ a < 0x200 + rom.length) → Memory.read t.mem a = Memory.read s.mem a) ∧
    (3584 < rom.length → transact (.loadRom rom) s = .next (.romTooLarge, s))

/-- The order of the two loads does not change the memory they produce (rule R241), nor anything else. -/
def Obligations.FontAndRomLoadInEitherOrder : Prop :=
  ∀ (rom : List Byte) (s : State), s.Inv → s.stepTaken = false → rom.length ≤ 3584 →
    ∃ t, transactAll [.loadFont, .loadRom rom] s = .next t ∧ transactAll [.loadRom rom, .loadFont] s = .next t

/-- Rule R244: `load_rom` of more than 3584 bytes answers `RomTooLarge`, code 8, and writes nothing; the machine is then
as after `reset` and `load_font`, and a step of it reads `0x0000` at `0x200` and faults. -/
def Obligations.OversizedRomIsRejectedAndChangesNothing : Prop :=
  Fault.code .romTooLarge = 8 ∧
  ∀ (rom : List Byte) (s : State), s.cfg.wf → 3584 < rom.length →
    (s.stepTaken = false → transact (.loadRom rom) s = .next (.romTooLarge, s)) ∧
    ∃ t u, transactAll [.reset, .loadFont] s = .next t ∧ transactAll (bootSequence rom) s = .next t ∧
      step t = .next u ∧ u.fault = some ⟨.unknownInstruction, some 0x0000, 0x200, none⟩

/-- After a step has run, both loads are refused (rule R241; the refusal is that of log entry 6). -/
def Obligations.LoadsAreRefusedOnceAStepHasRun : Prop :=
  ∀ (s t : State) (rom : List Byte), s.Inv → MayStep s t →
    transact .loadFont t = .refused .loadAfterFirstStep ∧
    transact (.loadRom rom) t = .refused .loadAfterFirstStep

/-! ### Ticks, keys and the host -/

/-- Rule R225: a tick lowers each timer by one, never below zero, independently, and writes nothing else. -/
def Obligations.TickCountsEachTimerDownToZero : Prop :=
  ∀ s : State, ∃ t, transact .tick s = .next (.nothing, t) ∧ t.dt.toNat = s.dt.toNat - 1 ∧
    t.st.toNat = s.st.toNat - 1 ∧ t = { s with dt := t.dt, st := t.st }

/-- Rule R254: the delay timer reads back as what `Fx15` wrote less the number of ticks between, floored at 0, through
any sequence of transactions between in which no step runs another `Fx15` and the machine is not reset. -/
def Obligations.DelayReadsBackLessTheTicksBetween : Prop :=
  ∀ (x y : RegIdx) (ts : List Transaction) (s t u : State), exec (.setDt x) s = .next t → Transaction.reset ∉ ts →
    NeverRuns (fun i => ∃ z, i = .setDt z) ts t → transactAll ts t = .next u →
    Completes (.ldFromDt y) u fun v => (v.reg y).toNat = (s.reg x).toNat - ts.count .tick

/-- Rules R41, R42, R43: the display and the sound timer are read without a change of state, and `set_keys` replaces the
sixteen keys and nothing else. -/
def Obligations.HostReadsAndKeyUpdatesChangeNothingElse : Prop :=
  ∀ (s : State) (k : Vector Bool 16),
    transact .readDisplay s = .next (.display s.display, s) ∧
    transact .readSoundTimer s = .next (.soundTimer s.st, s) ∧
    ∃ t, transact (.setKeys k) s = .next (.nothing, t) ∧ (∀ j : Fin 16, t.keys[j] = k[j]) ∧
      t = { s with keys := t.keys }

/-- Rule R252: through any ticks, key updates and host reads a blocked machine stays at its `Fx0A`, the word there is the
same, and the next step fetches it again; while no key is pressed that step blocks again and changes nothing. -/
def Obligations.ABlockedWaitIsFetchedAgainThroughTicksAndKeyUpdates : Prop :=
  ∀ (ts : List Transaction) (s t u : State), s.fault = none → MayStep s t → t.status = .blocked →
    (∀ x ∈ ts, x = .tick ∨ x = .readDisplay ∨ x = .readSoundTimer ∨ ∃ k, x = .setKeys k) →
    transactAll ts t = .next u →
    u.pc = s.pc ∧ u.wordAtPc = s.wordAtPc ∧
    (∃ x, s.fetch = .instr (.waitKey x) ∧ u.fetch = .instr (.waitKey x)) ∧
    ((∀ k : Fin 16, u.keys[k] = false) → StepsTo u u)

/-- A halted machine (rule R247 a) is halted again after any number of ticks and a step, which leaves all state but the
timers unchanged. The mark `stepTaken` is the model's own (log entry 6). -/
def Obligations.ASelfJumpChangesNothingButTheTimers : Prop :=
  ∀ (s : State) (n : Nat), s.fault = none → s.Halted →
    ∃ t, StepsTo (tick^[n] s) t ∧ t.Halted ∧ t = { s with dt := t.dt, st := t.st, stepTaken := true } ∧
      t.dt.toNat = s.dt.toNat - n ∧ t.st.toNat = s.st.toNat - n

/-! ### Display -/

/-- Rule R103: `xor_write` flips the one pixel its coordinates reduce to where `bit` is 1, and reports a collision
exactly when that pixel went from set to unset. -/
def Obligations.XorWriteFlipsOnePixelAndReportsItsErasure : Prop :=
  ∀ (d : Display) (x y : Nat) (bit : Bool),
    (∀ px py, px < 64 → py < 32 → (d.xorWrite x y bit).1.pixel px py =
      if px = x % 64 ∧ py = y % 32 then (d.pixel px py ^^ bit) else d.pixel px py) ∧
    ((d.xorWrite x y bit).2 = true ↔
      d.pixel x y = true ∧ (d.xorWrite x y bit).1.pixel x y = false)

/-- Rule R104: `00E0` clears every pixel and writes nothing else. -/
def Obligations.ClsClearsEveryPixel : Prop :=
  ∀ s : State, decodeWord 0x00E0 = some .cls ∧ Completes .cls s fun t =>
    t.pc = s.pc + 2 ∧ (∀ x y, t.display.pixel x y = false) ∧ LeavesAllBut [.display] s t

/-- Rule R105: `Dxyn` XORs the `n` bytes at `I`.. onto the display, most significant bit leftmost, with both coordinates
wrapped, and sets `VF` to 1 exactly when a set pixel was hit, else to 0; it faults before any write where the last byte
lies above `0xFFF`. -/
def Obligations.DrwXorsTheSpriteWithWraparound : Prop :=
  ∀ (x y : RegIdx) (n : Fin 16) (s : State),
    decodeWord (patXyn 0xD x y (nib n)) = some (.drw x y n) ∧
    ((n.val = 0 ∨ s.index.toNat + n.val - 1 ≤ 0xFFF) → Completes (.drw x y n) s fun t =>
      t.pc = s.pc + 2 ∧ LeavesAllBut [.regs, .display] s t ∧ (∀ k, k ≠ 15 → t.reg k = s.reg k) ∧
      (∀ px py, px < 64 → py < 32 →
        (SpriteSets s x y n.val px py → t.display.pixel px py = !s.display.pixel px py) ∧
        (¬SpriteSets s x y n.val px py → t.display.pixel px py = s.display.pixel px py)) ∧
      ((∃ px py, px < 64 ∧ py < 32 ∧ s.display.pixel px py = true ∧ SpriteSets s x y n.val px py) →
        t.reg 15 = 1) ∧
      (¬(∃ px py, px < 64 ∧ py < 32 ∧ s.display.pixel px py = true ∧ SpriteSets s x y n.val px py) →
        t.reg 15 = 0)) ∧
    (0 < n.val → 0xFFF < s.index.toNat + n.val - 1 →
      Faults (.drw x y n) s .memoryOutOfRange (patXyn 0xD x y (nib n)) (some (max s.index.toNat 0x1000)))

/-- Rule R107: after a `Dxyn` that does not fault, `VF` is 1 if and only if at least one pixel was 1 before and is 0
after, and it is 0 otherwise. -/
def Obligations.DrwSetsVfExactlyOnErasure : Prop :=
  ∀ (x y : RegIdx) (n : Fin 16) (s t : State), exec (.drw x y n) s = .next t → t.status = .stepped →
    (t.reg 15 = 1 ↔
      ∃ px py, px < 64 ∧ py < 32 ∧ s.display.pixel px py = true ∧ t.display.pixel px py = false) ∧
    (t.reg 15 = 1 ∨ t.reg 15 = 0)

/-! ### Control transfer -/

/-- Rule R120: `00EE` drops the top entry and goes to it plus 2, or underflows. -/
def Obligations.RetPopsOrUnderflows : Prop :=
  ∀ s : State, decodeWord 0x00EE = some .ret ∧
    (∀ k : Fin 16, k.val + 1 = s.sp.val → Completes .ret s fun t =>
      t.sp.val = k.val ∧ t.pc = s.stack[k] + 2 ∧ t.stack = s.stack ∧ LeavesAllBut [.stack] s t) ∧
    (s.sp = 0 → Faults .ret s .stackUnderflow 0x00EE none)

/-- Rule R121: `1nnn` sets `pc` to `nnn` and writes nothing else. -/
def Obligations.JpSetsPcDirectly : Prop :=
  ∀ (nnn : Addr) (s : State), decodeWord (patNnn 0x1 nnn) = some (.jp nnn) ∧ Completes (.jp nnn) s fun t =>
    t.pc.toNat = nnn.toNat ∧ LeavesAllBut [] s t

/-- Rule R122: `2nnn` pushes its own address and goes to `nnn`, or overflows with nothing written. -/
def Obligations.CallPushesItsAddressOrOverflows : Prop :=
  ∀ (nnn : Addr) (s : State), decodeWord (patNnn 0x2 nnn) = some (.call nnn) ∧
    (∀ k : Fin 16, k.val = s.sp.val → Completes (.call nnn) s fun t =>
      t.sp.val = k.val + 1 ∧ t.stack[k] = s.pc ∧ (∀ j : Fin 16, j ≠ k → t.stack[j] = s.stack[j]) ∧
      t.pc.toNat = nnn.toNat ∧ LeavesAllBut [.stack] s t) ∧
    (s.sp.val = 16 → Faults (.call nnn) s .stackOverflow (patNnn 0x2 nnn) none)

/-- A call and the return that finds its entry on top come back to the word after the call with the stack pointer as
before, and every entry below untouched (rules R120, R122; Scenario D). -/
def Obligations.CallThenReturnComesBackAfterTheCall : Prop :=
  ∀ (nnn : Addr) (s t u : State), exec (.call nnn) s = .next t → t.status = .stepped → u.sp = t.sp →
    u.stack = t.stack → Completes .ret u fun v =>
      v.pc = s.pc + 2 ∧ v.sp = s.sp ∧ ∀ k : Fin 16, k.val < s.sp.val → v.stack[k] = s.stack[k]

/-- Rules R123 to R126: the register and immediate skips, which write nothing but `pc`, whatever the skipped word is. -/
def Obligations.RegisterSkipsAdvanceByFourOrTwo : Prop :=
  ∀ (x y : RegIdx) (kk : Byte) (s : State),
    (decodeWord (patXkk 0x3 x kk) = some (.seImm x kk) ∧ Completes (.seImm x kk) s fun t =>
      (s.reg x = kk → t.pc = s.pc + 4) ∧ (s.reg x ≠ kk → t.pc = s.pc + 2) ∧ LeavesAllBut [] s t) ∧
    (decodeWord (patXkk 0x4 x kk) = some (.sneImm x kk) ∧ Completes (.sneImm x kk) s fun t =>
      (s.reg x ≠ kk → t.pc = s.pc + 4) ∧ (s.reg x = kk → t.pc = s.pc + 2) ∧ LeavesAllBut [] s t) ∧
    (decodeWord (patXyn 0x5 x y 0x0) = some (.seReg x y) ∧ Completes (.seReg x y) s fun t =>
      (s.reg x = s.reg y → t.pc = s.pc + 4) ∧ (s.reg x ≠ s.reg y → t.pc = s.pc + 2) ∧ LeavesAllBut [] s t) ∧
    (decodeWord (patXyn 0x9 x y 0x0) = some (.sneReg x y) ∧ Completes (.sneReg x y) s fun t =>
      (s.reg x ≠ s.reg y → t.pc = s.pc + 4) ∧ (s.reg x = s.reg y → t.pc = s.pc + 2) ∧ LeavesAllBut [] s t) ∧
    (∀ n : BitVec 4, n ≠ 0 → decodeWord (patXyn 0x5 x y n) = none ∧ decodeWord (patXyn 0x9 x y n) = none)

/-- Rule R127: `Bnnn` goes to the exact sum of `nnn` and `V0`. -/
def Obligations.JpV0AddsWithoutTruncation : Prop :=
  ∀ (nnn : Addr) (s : State), decodeWord (patNnn 0xB nnn) = some (.jpV0 nnn) ∧ Completes (.jpV0 nnn) s fun t =>
    t.pc.toNat = nnn.toNat + (s.reg 0).toNat ∧ LeavesAllBut [] s t

/-- The entries at and above `SP` are unobservable (10_state.md rule R39 a): two machines that differ only in them go on
differing only in them, at every step, whatever byte is drawn. -/
def Obligations.DeadStackEntriesAreUnobservable : Prop :=
  ∀ s s' t : State, SameButDeadStack s s' →
    (step s = .next t → ∃ t', step s' = .next t' ∧ SameButDeadStack t t') ∧
    ∀ rand, stepGiven rand s = .next t → ∃ t', stepGiven rand s' = .next t' ∧ SameButDeadStack t t'

/-! ### Registers and arithmetic -/

/-- Rules R142, R143, R144: the immediate load, the immediate add modulo 256 with no flag, the copy. -/
def Obligations.ImmediateAndCopyWriteOnlyVx : Prop :=
  ∀ (x y : RegIdx) (kk : Byte) (s : State),
    (decodeWord (patXkk 0x6 x kk) = some (.ldImm x kk) ∧ Completes (.ldImm x kk) s fun t => t.pc = s.pc + 2 ∧
      t.reg x = kk ∧ (∀ k, k ≠ x → t.reg k = s.reg k) ∧ LeavesAllBut [.regs] s t) ∧
    (decodeWord (patXkk 0x7 x kk) = some (.addImm x kk) ∧ Completes (.addImm x kk) s fun t => t.pc = s.pc + 2 ∧
      (t.reg x).toNat = ((s.reg x).toNat + kk.toNat) % 256 ∧ (∀ k, k ≠ x → t.reg k = s.reg k) ∧
      LeavesAllBut [.regs] s t) ∧
    (decodeWord (patXyn 0x8 x y 0x0) = some (.ldReg x y) ∧ Completes (.ldReg x y) s fun t => t.pc = s.pc + 2 ∧
      t.reg x = s.reg y ∧ (∀ k, k ≠ x → t.reg k = s.reg k) ∧ LeavesAllBut [.regs] s t)

/-- Rules R145, R146, R147: OR, AND, XOR, bit by bit, with no flag. -/
def Obligations.LogicWritesOnlyVx : Prop :=
  ∀ (x y : RegIdx) (s : State),
    (decodeWord (patXyn 0x8 x y 0x1) = some (.orReg x y) ∧ Completes (.orReg x y) s fun t => t.pc = s.pc + 2 ∧
      (∀ b, (t.reg x).getLsbD b = ((s.reg x).getLsbD b || (s.reg y).getLsbD b)) ∧
      (∀ k, k ≠ x → t.reg k = s.reg k) ∧ LeavesAllBut [.regs] s t) ∧
    (decodeWord (patXyn 0x8 x y 0x2) = some (.andReg x y) ∧ Completes (.andReg x y) s fun t => t.pc = s.pc + 2 ∧
      (∀ b, (t.reg x).getLsbD b = ((s.reg x).getLsbD b && (s.reg y).getLsbD b)) ∧
      (∀ k, k ≠ x → t.reg k = s.reg k) ∧ LeavesAllBut [.regs] s t) ∧
    (decodeWord (patXyn 0x8 x y 0x3) = some (.xorReg x y) ∧ Completes (.xorReg x y) s fun t => t.pc = s.pc + 2 ∧
      (∀ b, (t.reg x).getLsbD b = ((s.reg x).getLsbD b ^^ (s.reg y).getLsbD b)) ∧
      (∀ k, k ≠ x → t.reg k = s.reg k) ∧ LeavesAllBut [.regs] s t)

/-- Rule R148: the sum modulo 256 into `Vx`, then the carry into `VF`, under every reading and for `x = F` too. -/
def Obligations.AddRegWrapsAndSetsCarry : Prop :=
  ∀ (x y : RegIdx) (s : State), decodeWord (patXyn 0x8 x y 0x4) = some (.addReg x y) ∧
    Completes (.addReg x y) s fun t => t.pc = s.pc + 2 ∧
      (t.reg 15 = if (s.reg x).toNat + (s.reg y).toNat > 255 then 1 else 0) ∧
      (x ≠ 15 → (t.reg x).toNat = ((s.reg x).toNat + (s.reg y).toNat) % 256) ∧
      (∀ k, k ≠ x → k ≠ 15 → t.reg k = s.reg k) ∧ LeavesAllBut [.regs] s t

/-- Rules R149, R151: both subtractions modulo 256, with `VF` 1 when there is no borrow, under each `VF_ALIAS`. -/
def Obligations.SubtractionsUnderEveryReading : Prop :=
  ∀ (x y : RegIdx) (s : State),
    (decodeWord (patXyn 0x8 x y 0x5) = some (.subReg x y) ∧ Completes (.subReg x y) s fun t => t.pc = s.pc + 2 ∧
      FlagFirstWrites s.cfg.vfAlias x (fun v => BitVec.ofNat 8 (256 + (v x).toNat - (v y).toNat))
        (if (s.reg x).toNat ≥ (s.reg y).toNat then 1 else 0) s.reg t.reg ∧ LeavesAllBut [.regs] s t) ∧
    (decodeWord (patXyn 0x8 x y 0x7) = some (.subnReg x y) ∧ Completes (.subnReg x y) s fun t => t.pc = s.pc + 2 ∧
      FlagFirstWrites s.cfg.vfAlias x (fun v => BitVec.ofNat 8 (256 + (v y).toNat - (v x).toNat))
        (if (s.reg y).toNat ≥ (s.reg x).toNat then 1 else 0) s.reg t.reg ∧ LeavesAllBut [.regs] s t)

/-- Rules R150, R152: both shifts of `Vx` by one, with `VF` the bit shifted out, under each `VF_ALIAS` and for every
`y`. -/
def Obligations.ShiftsUnderEveryReading : Prop :=
  ∀ (x y : RegIdx) (s : State),
    (decodeWord (patXyn 0x8 x y 0x6) = some (.shr x y) ∧ Completes (.shr x y) s fun t => t.pc = s.pc + 2 ∧
      FlagFirstWrites s.cfg.vfAlias x (fun v => BitVec.ofNat 8 ((v x).toNat / 2))
        (BitVec.ofNat 8 ((s.reg x).toNat % 2)) s.reg t.reg ∧ LeavesAllBut [.regs] s t) ∧
    (decodeWord (patXyn 0x8 x y 0xE) = some (.shl x y) ∧ Completes (.shl x y) s fun t => t.pc = s.pc + 2 ∧
      FlagFirstWrites s.cfg.vfAlias x (fun v => BitVec.ofNat 8 (2 * (v x).toNat))
        (BitVec.ofNat 8 ((s.reg x).toNat / 128)) s.reg t.reg ∧ LeavesAllBut [.regs] s t)

/-- When `x` and `y` both differ from `F`, the readings of `VF_ALIAS` give the same registers and the same of everything
else but the parameter itself (rule R141). -/
def Obligations.ReadingsAgreeAwayFromVf : Prop :=
  ∀ (x y : RegIdx) (s : State) (a b : VfAlias) (i : Instr), x ≠ 15 → y ≠ 15 →
    i ∈ [.addReg x y, .subReg x y, .shr x y, .subnReg x y, .shl x y] →
    ∃ t, exec i { s with cfg := { s.cfg with vfAlias := a } } = .next t ∧
      exec i { s with cfg := { s.cfg with vfAlias := b } } = .next { t with cfg := { s.cfg with vfAlias := b } }

/-- Rule R153: `Cxkk` writes the drawn byte AND `kk`, for every byte that its step is given. In a step that is given none
the draw is a free value, the next of an unknown sequence that the model counts (log entry 1), and nothing is said of it
but its mask. -/
def Obligations.RndMasksTheDrawnByte : Prop :=
  ∀ (x : RegIdx) (kk : Byte) (s : State), decodeWord (patXkk 0xC x kk) = some (.rnd x kk) ∧
    (∀ rand : Byte, ∃ t, execGiven rand (.rnd x kk) s = .next t ∧ t.status = .stepped ∧ t.pc = s.pc + 2 ∧
      (∀ b, (t.reg x).getLsbD b = (rand.getLsbD b && kk.getLsbD b)) ∧ (∀ k, k ≠ x → t.reg k = s.reg k) ∧
      LeavesAllBut [.regs] s t) ∧
    Completes (.rnd x kk) s fun t => t.pc = s.pc + 2 ∧
      (∀ b, (t.reg x).getLsbD b = ((Config.randByte s.draws).getLsbD b && kk.getLsbD b)) ∧
      t.draws = s.draws + 1 ∧ (∀ k, k ≠ x → t.reg k = s.reg k) ∧ LeavesAllBut [.regs, .draws] s t

/-! ### The index register and memory -/

/-- Rules R170, R171, R172: the three writes of `I`, exact, with the range fault that records the computed index. -/
def Obligations.IndexIsSetExactlyOrFaults : Prop :=
  ∀ (x : RegIdx) (nnn : Addr) (s : State),
    (decodeWord (patNnn 0xA nnn) = some (.ldIndex nnn) ∧ Completes (.ldIndex nnn) s fun t => t.pc = s.pc + 2 ∧
      t.index.toNat = nnn.toNat ∧ LeavesAllBut [.index] s t) ∧
    decodeWord (patXkk 0xF x 0x1E) = some (.addIndex x) ∧
    (s.index.toNat + (s.reg x).toNat ≤ 0xFFF → Completes (.addIndex x) s fun t => t.pc = s.pc + 2 ∧
      t.index.toNat = s.index.toNat + (s.reg x).toNat ∧ LeavesAllBut [.index] s t) ∧
    (0xFFF < s.index.toNat + (s.reg x).toNat → Faults (.addIndex x) s .memoryOutOfRange (patXkk 0xF x 0x1E)
      (some (s.index.toNat + (s.reg x).toNat))) ∧
    decodeWord (patXkk 0xF x 0x29) = some (.ldGlyph x) ∧
    (s.cfg.fontBase + 5 * (s.reg x).toNat ≤ 0xFFF → Completes (.ldGlyph x) s fun t => t.pc = s.pc + 2 ∧
      t.index.toNat = s.cfg.fontBase + 5 * (s.reg x).toNat ∧ LeavesAllBut [.index] s t) ∧
    (0xFFF < s.cfg.fontBase + 5 * (s.reg x).toNat → Faults (.ldGlyph x) s .memoryOutOfRange (patXkk 0xF x 0x29)
      (some (s.cfg.fontBase + 5 * (s.reg x).toNat)))

/-- Rule R173: `Fx33` stores the three decimal digits at `I`, `I+1`, `I+2` and writes nothing else, or faults with no
byte written: out of range, else on the protected font. -/
def Obligations.BcdStoresTheDecimalDigits : Prop :=
  ∀ (x : RegIdx) (s : State), Memory.wf s.mem →
    decodeWord (patXkk 0xF x 0x33) = some (.bcd x) ∧
    (s.index.toNat + 2 ≤ 0xFFF →
      ¬(s.cfg.fontWriteProtect = true ∧ s.index.toNat ≤ s.cfg.fontBase + 79 ∧ s.cfg.fontBase ≤ s.index.toNat + 2) →
      Completes (.bcd x) s fun t => t.pc = s.pc + 2 ∧
        (Memory.read t.mem (s.at 0)).toNat = (s.reg x).toNat / 100 ∧
        (Memory.read t.mem (s.at 1)).toNat = (s.reg x).toNat / 10 % 10 ∧
        (Memory.read t.mem (s.at 2)).toNat = (s.reg x).toNat % 10 ∧
        (∀ a, a ≠ s.at 0 → a ≠ s.at 1 → a ≠ s.at 2 → Memory.read t.mem a = Memory.read s.mem a) ∧
        LeavesAllBut [.mem] s t) ∧
    (0xFFF < s.index.toNat + 2 →
      Faults (.bcd x) s .memoryOutOfRange (patXkk 0xF x 0x33) (some (max s.index.toNat 0x1000))) ∧
    (s.index.toNat + 2 ≤ 0xFFF → s.cfg.fontWriteProtect = true → s.index.toNat ≤ s.cfg.fontBase + 79 →
      s.cfg.fontBase ≤ s.index.toNat + 2 →
      Faults (.bcd x) s .fontRegionWrite (patXkk 0xF x 0x33) (some (max s.index.toNat s.cfg.fontBase)))

/-- Rule R174: `Fx55` stores `V0`..`Vx` at `I`.. and writes nothing else, `I` among it, or faults with no byte written. -/
def Obligations.StoreRegsCopiesV0ToVx : Prop :=
  ∀ (x : RegIdx) (s : State), Memory.wf s.mem →
    decodeWord (patXkk 0xF x 0x55) = some (.storeRegs x) ∧
    (s.index.toNat + x.val ≤ 0xFFF →
      ¬(s.cfg.fontWriteProtect = true ∧ s.index.toNat ≤ s.cfg.fontBase + 79 ∧
        s.cfg.fontBase ≤ s.index.toNat + x.val) →
      Completes (.storeRegs x) s fun t => t.pc = s.pc + 2 ∧
        (∀ k : RegIdx, k ≤ x → Memory.read t.mem (s.at k.val) = s.reg k) ∧
        (∀ a, (∀ k : RegIdx, k ≤ x → a ≠ s.at k.val) → Memory.read t.mem a = Memory.read s.mem a) ∧
        LeavesAllBut [.mem] s t) ∧
    (0xFFF < s.index.toNat + x.val →
      Faults (.storeRegs x) s .memoryOutOfRange (patXkk 0xF x 0x55) (some (max s.index.toNat 0x1000))) ∧
    (s.index.toNat + x.val ≤ 0xFFF → s.cfg.fontWriteProtect = true → s.index.toNat ≤ s.cfg.fontBase + 79 →
      s.cfg.fontBase ≤ s.index.toNat + x.val →
      Faults (.storeRegs x) s .fontRegionWrite (patXkk 0xF x 0x55) (some (max s.index.toNat s.cfg.fontBase)))

/-- Rule R175: `Fx65` loads `V0`..`Vx` from `I`.. and writes nothing else, or faults with no register written. -/
def Obligations.LoadRegsCopiesToV0ToVx : Prop :=
  ∀ (x : RegIdx) (s : State),
    decodeWord (patXkk 0xF x 0x65) = some (.loadRegs x) ∧
    (s.index.toNat + x.val ≤ 0xFFF → Completes (.loadRegs x) s fun t => t.pc = s.pc + 2 ∧
      (∀ k : RegIdx, k ≤ x → t.reg k = Memory.read s.mem (s.at k.val)) ∧
      (∀ k : RegIdx, x < k → t.reg k = s.reg k) ∧ LeavesAllBut [.regs] s t) ∧
    (0xFFF < s.index.toNat + x.val →
      Faults (.loadRegs x) s .memoryOutOfRange (patXkk 0xF x 0x65) (some (max s.index.toNat 0x1000)))

/-- Rule R177: `Fx55`, then `Fx65` with the same `x`, with `I` and the stored bytes unchanged between, restores
`V0`..`Vx`. -/
def Obligations.StoreThenLoadRestoresTheRegisters : Prop :=
  ∀ (x : RegIdx) (s t u : State), Memory.wf s.mem → exec (.storeRegs x) s = .next t → t.status = .stepped →
    u.index = s.index → (∀ k : RegIdx, k ≤ x → Memory.read u.mem (s.at k.val) = Memory.read t.mem (s.at k.val)) →
    Completes (.loadRegs x) u fun v => ∀ k : RegIdx, k ≤ x → v.reg k = s.reg k

/-- Self-modifying code needs nothing between (20_memory.md rule R65, 70_reset_and_hazards.md rule R251): where a step
runs an `Fx55` that stores `V0` and `V1` over the next word, the next step runs the instruction of that word. -/
def Obligations.AStoreOverTheNextWordIsRunByTheNextStep : Prop :=
  ∀ (x : RegIdx) (j : Instr) (s t : State), s.Inv → s.fault = none → s.fetch = .instr (.storeRegs x) → 1 ≤ x.val →
    s.index.toNat = s.pc.toNat + 2 → decodeWord (s.reg 0 ++ s.reg 1) = some j → step s = .next t →
    t.status = .stepped → step t = exec j t ∧ ∀ rand, stepGiven rand t = execGiven rand j t

/-- Memory has one form for its contents: two canonical memories that read the same at every address are the same list
(the form is the model's own, log entry 9). -/
def Obligations.MemoriesWithEqualBytesAreEqual : Prop :=
  ∀ m m' : Memory, Memory.wf m → Memory.wf m' → (∀ a, Memory.read m a = Memory.read m' a) → m = m'

/-! ### Keypad and timers -/

/-- Rules R190, R191: the keypad skips follow the snapshot and write nothing but `pc`; a key number above `0xF` faults. -/
def Obligations.KeySkipsFollowTheSnapshot : Prop :=
  ∀ (x : RegIdx) (s : State),
    decodeWord (patXkk 0xE x 0x9E) = some (.skp x) ∧ decodeWord (patXkk 0xE x 0xA1) = some (.sknp x) ∧
    (∀ k : Fin 16, (s.reg x).toNat = k.val →
      (Completes (.skp x) s fun t => (s.keys[k] = true → t.pc = s.pc + 4) ∧ (s.keys[k] = false → t.pc = s.pc + 2) ∧
        LeavesAllBut [] s t) ∧
      (Completes (.sknp x) s fun t => (s.keys[k] = false → t.pc = s.pc + 4) ∧ (s.keys[k] = true → t.pc = s.pc + 2) ∧
        LeavesAllBut [] s t)) ∧
    (0xF < (s.reg x).toNat →
      Faults (.skp x) s .keyIndexOutOfRange (patXkk 0xE x 0x9E) none ∧
      Faults (.sknp x) s .keyIndexOutOfRange (patXkk 0xE x 0xA1) none)

/-- Rules R192, R194, R195: reading the delay timer, writing either timer. -/
def Obligations.TimerInstructionsMoveOneByte : Prop :=
  ∀ (x : RegIdx) (s : State),
    (decodeWord (patXkk 0xF x 0x07) = some (.ldFromDt x) ∧ Completes (.ldFromDt x) s fun t => t.pc = s.pc + 2 ∧
      t.reg x = s.dt ∧ (∀ k, k ≠ x → t.reg k = s.reg k) ∧ LeavesAllBut [.regs] s t) ∧
    (decodeWord (patXkk 0xF x 0x15) = some (.setDt x) ∧ Completes (.setDt x) s fun t => t.pc = s.pc + 2 ∧
      t.dt = s.reg x ∧ LeavesAllBut [.delay] s t) ∧
    (decodeWord (patXkk 0xF x 0x18) = some (.setSt x) ∧ Completes (.setSt x) s fun t => t.pc = s.pc + 2 ∧
      t.st = s.reg x ∧ LeavesAllBut [.sound] s t)

/-- Rule R193: with no key pressed `Fx0A` blocks and writes nothing but the status; else it stores the least pressed key,
and the keypad is unchanged. -/
def Obligations.WaitKeyBlocksOrStoresTheLeastKey : Prop :=
  ∀ (x : RegIdx) (s : State), decodeWord (patXkk 0xF x 0x0A) = some (.waitKey x) ∧
    ((∀ k : Fin 16, s.keys[k] = false) → exec (.waitKey x) s = .next { s with status := .blocked }) ∧
    ∀ k : Fin 16, s.keys[k] = true → (∀ j : Fin 16, j < k → s.keys[j] = false) →
      Completes (.waitKey x) s fun t => t.pc = s.pc + 2 ∧ (t.reg x).toNat = k.val ∧
        (∀ j, j ≠ x → t.reg j = s.reg j) ∧ LeavesAllBut [.regs] s t

/-- The sound timer is read by no instruction (10_state.md rule R31): another value of it changes nothing but itself. -/
def Obligations.TheSoundTimerIsReadByNoInstruction : Prop :=
  (∀ (i : Instr) (s t : State) (v : Byte), (∀ x, i ≠ .setSt x) → exec i s = .next t →
    exec i { s with st := v } = .next { t with st := v }) ∧
  ∀ (x : RegIdx) (s : State) (v : Byte), exec (.setSt x) { s with st := v } = exec (.setSt x) s

/-! ### Fault codes -/

/-- The code of a record is the one rule R211 assigns to its kind, 1 to 7; so records of two kinds have two codes, and
none has the code 8 of `RomTooLarge`. That the code is computed and not stored is the model's choice (log entry 5). -/
def Obligations.EveryFaultKindHasItsOwnCode : Prop :=
  (∀ r : FaultRecord,
    (r.kind = .unknownInstruction → r.code = 1) ∧ (r.kind = .stackOverflow → r.code = 2) ∧
    (r.kind = .stackUnderflow → r.code = 3) ∧ (r.kind = .memoryOutOfRange → r.code = 4) ∧
    (r.kind = .keyIndexOutOfRange → r.code = 5) ∧ (r.kind = .fontRegionWrite → r.code = 6) ∧
    (r.kind = .misalignedFetch → r.code = 7) ∧ r.code ≠ Fault.code .romTooLarge) ∧
  ∀ q r : FaultRecord, q.code = r.code → q.kind = r.kind
end

