-- ==== Sys2Proof/Laws/Memory.lean ====
section
/-! SUPPORT. Reading after writing, and that every memory operation keeps the canonical form. -/

namespace Sys2Proof.Machine

@[simp] theorem Memory.read_nil (a : Nat) : Memory.read [] a = Memory.unlisted := rfl

theorem Memory.read_cons (b : Nat) (v : Byte) (m : Memory) (a : Nat) :
    Memory.read ((b, v) :: m) a = if a = b then v else Memory.read m a := rfl

/-- An address below every listed one is not listed. -/
theorem Memory.read_below {m : Memory} {a : Nat} (h : ∀ c ∈ m, a < c.1) : Memory.read m a = Memory.unlisted := by
  induction m with
  | nil => rfl
  | cons c m ih =>
    obtain ⟨b, v⟩ := c
    have hb : a < b := h (b, v) (by simp)
    rw [Memory.read_cons, if_neg (by omega)]
    exact ih fun d hd => h d (by simp [hd])

theorem Memory.wf_nil : Memory.wf [] := by simp [Memory.wf]

theorem Memory.wf_cons (b : Nat) (v : Byte) (m : Memory) :
    Memory.wf ((b, v) :: m) ↔
      (∀ c ∈ m, b < c.1) ∧ (b < Config.memSize ∧ v ≠ Memory.unlisted) ∧ Memory.wf m := by
  simp only [Memory.wf, List.pairwise_cons, List.mem_cons, forall_eq_or_imp]
  tauto

/-- `Memory.entry` in front of entries that lie higher: what it reads as. -/
theorem Memory.read_entry {m : Memory} {a : Nat} (h : ∀ c ∈ m, a < c.1) (v : Byte) (b : Nat) :
    Memory.read (Memory.entry a v m) b = if b = a then v else Memory.read m b := by
  unfold Memory.entry
  split
  · next hv =>
    by_cases hb : b = a
    · subst hb; simp [Memory.read_below h, hv]
    · simp [hb]
  · rw [Memory.read_cons]

theorem Memory.wf_entry {m : Memory} {a : Nat} (h : ∀ c ∈ m, a < c.1) (hm : Memory.wf m) (ha : a < Config.memSize)
    (v : Byte) : Memory.wf (Memory.entry a v m) := by
  unfold Memory.entry
  split
  · exact hm
  · next hv => exact (Memory.wf_cons a v m).2 ⟨h, ⟨ha, hv⟩, hm⟩

theorem Memory.mem_entry {m : Memory} {a : Nat} {v : Byte} {c : Host.Cell} (h : c ∈ Memory.entry a v m) :
    c.1 = a ∨ c ∈ m := by
  unfold Memory.entry at h
  split at h
  · exact .inr h
  · rcases List.mem_cons.1 h with rfl | h
    · exact .inl rfl
    · exact .inr h

/-- A written memory lists only the written address and addresses listed before. -/
theorem Memory.mem_write {m : Memory} {a : Nat} {v : Byte} {c : Host.Cell} (h : c ∈ Memory.write m a v) :
    c.1 = a ∨ c ∈ m := by
  induction m with
  | nil => exact Memory.mem_entry h
  | cons d m ih =>
    obtain ⟨b, u⟩ := d
    simp only [Memory.write] at h
    split at h
    · exact Memory.mem_entry h
    · split at h
      · rcases Memory.mem_entry h with h | h
        · exact .inl h
        · exact .inr (by simp [h])
      · rcases List.mem_cons.1 h with rfl | h
        · exact .inr (by simp)
        · rcases ih h with h | h
          · exact .inl h
          · exact .inr (by simp [h])

/-- A write changes the byte it names and no other (20_memory.md rule R56). -/
theorem Memory.read_write {m : Memory} (hm : Memory.wf m) (a : Nat) (v : Byte) (b : Nat) :
    Memory.read (Memory.write m a v) b = if b = a then v else Memory.read m b := by
  induction m with
  | nil => exact Memory.read_entry (by simp) v b
  | cons c m ih =>
    obtain ⟨d, u⟩ := c
    obtain ⟨hlt, -, hw⟩ := (Memory.wf_cons d u m).1 hm
    simp only [Memory.write]
    split
    · next had =>
      refine Memory.read_entry ?_ v b
      intro c hc
      rcases List.mem_cons.1 hc with rfl | hc
      · exact had
      · exact Nat.lt_trans had (hlt c hc)
    · split
      · next had =>
        subst had
        rw [Memory.read_entry hlt, Memory.read_cons]
        split <;> rfl
      · next had =>
        rw [Memory.read_cons, Memory.read_cons, ih hw]
        by_cases hb : b = d
        · subst hb; simp [show b ≠ a from fun e => had e.symm]
        · simp [hb]

theorem Memory.read_write_same {m : Memory} (hm : Memory.wf m) (a : Nat) (v : Byte) :
    Memory.read (Memory.write m a v) a = v := by simp [Memory.read_write hm]

theorem Memory.read_write_other {m : Memory} (hm : Memory.wf m) {a b : Nat} (h : b ≠ a) (v : Byte) :
    Memory.read (Memory.write m a v) b = Memory.read m b := by simp [Memory.read_write hm, h]

/-- A write inside the address space keeps the canonical form. -/
theorem Memory.wf_write {m : Memory} (hm : Memory.wf m) {a : Nat} (ha : a < Config.memSize) (v : Byte) :
    Memory.wf (Memory.write m a v) := by
  induction m with
  | nil => exact Memory.wf_entry (by simp) hm ha v
  | cons c m ih =>
    obtain ⟨d, u⟩ := c
    obtain ⟨hlt, hd, hw⟩ := (Memory.wf_cons d u m).1 hm
    simp only [Memory.write]
    split
    · next had =>
      refine Memory.wf_entry ?_ hm ha v
      intro c hc
      rcases List.mem_cons.1 hc with rfl | hc
      · exact had
      · exact Nat.lt_trans had (hlt c hc)
    · split
      · next had => subst had; exact Memory.wf_entry hlt hw ha v
      · next had1 had2 =>
        refine (Memory.wf_cons d u _).2 ⟨?_, hd, ih hw⟩
        intro c hc
        rcases Memory.mem_write hc with h | h
        · omega
        · exact hlt c h

/-- Consecutive writes inside the address space keep the canonical form. -/
theorem Memory.wf_writeBytes (bytes : List Byte) {m : Memory} (hm : Memory.wf m) {a : Nat}
    (ha : a + bytes.length ≤ Config.memSize) : Memory.wf (Memory.writeBytes m a bytes) := by
  induction bytes generalizing m a with
  | nil => exact hm
  | cons v rest ih =>
    simp only [List.length_cons] at ha
    exact ih (Memory.wf_write hm (by omega) v) (by omega)

/-- Consecutive writes change exactly the bytes they name. -/
theorem Memory.read_writeBytes (bytes : List Byte) {m : Memory} (hm : Memory.wf m) {a : Nat}
    (ha : a + bytes.length ≤ Config.memSize) (b : Nat) :
    Memory.read (Memory.writeBytes m a bytes) b =
      if h : a ≤ b ∧ b < a + bytes.length then bytes[b - a]'(by omega) else Memory.read m b := by
  induction bytes generalizing m a with
  | nil => simp [Memory.writeBytes]
  | cons v rest ih =>
    simp only [List.length_cons] at ha
    rw [Memory.writeBytes, ih (Memory.wf_write hm (by omega) v) (by omega), Memory.read_write hm]
    by_cases hb : b = a
    · subst hb; simp
    · by_cases h1 : a + 1 ≤ b ∧ b < a + 1 + rest.length
      · have h2 : a ≤ b ∧ b < a + (v :: rest).length := by simp only [List.length_cons]; omega
        rw [dif_pos h1, dif_pos h2, List.getElem_cons, dif_neg (by omega)]
        congr 1
      · have h2 : ¬(a ≤ b ∧ b < a + (v :: rest).length) := by simp only [List.length_cons]; omega
        rw [dif_neg h1, dif_neg h2, if_neg hb]

end Sys2Proof.Machine
end

