-- ==== Sys2Proof/Laws/State.lean ====
section
/-! SUPPORT. One lemma per field per update of the state: what each named update leaves in each field. -/

namespace Sys2Proof.Machine

variable (s : State)

/-! ### `setReg` -/

@[simp] theorem State.setReg_regs (x : RegIdx) (v : Byte) : (s.setReg x v).regs = s.regs.set x v := rfl
@[simp] theorem State.setReg_pc (x : RegIdx) (v : Byte) : (s.setReg x v).pc = s.pc := rfl
@[simp] theorem State.setReg_index (x : RegIdx) (v : Byte) : (s.setReg x v).index = s.index := rfl
@[simp] theorem State.setReg_stack (x : RegIdx) (v : Byte) : (s.setReg x v).stack = s.stack := rfl
@[simp] theorem State.setReg_sp (x : RegIdx) (v : Byte) : (s.setReg x v).sp = s.sp := rfl
@[simp] theorem State.setReg_dt (x : RegIdx) (v : Byte) : (s.setReg x v).dt = s.dt := rfl
@[simp] theorem State.setReg_st (x : RegIdx) (v : Byte) : (s.setReg x v).st = s.st := rfl
@[simp] theorem State.setReg_keys (x : RegIdx) (v : Byte) : (s.setReg x v).keys = s.keys := rfl
@[simp] theorem State.setReg_display (x : RegIdx) (v : Byte) : (s.setReg x v).display = s.display := rfl
@[simp] theorem State.setReg_mem (x : RegIdx) (v : Byte) : (s.setReg x v).mem = s.mem := rfl
@[simp] theorem State.setReg_status (x : RegIdx) (v : Byte) : (s.setReg x v).status = s.status := rfl
@[simp] theorem State.setReg_fault (x : RegIdx) (v : Byte) : (s.setReg x v).fault = s.fault := rfl
@[simp] theorem State.setReg_cfg (x : RegIdx) (v : Byte) : (s.setReg x v).cfg = s.cfg := rfl
@[simp] theorem State.setReg_draws (x : RegIdx) (v : Byte) : (s.setReg x v).draws = s.draws := rfl
@[simp] theorem State.setReg_stepTaken (x : RegIdx) (v : Byte) : (s.setReg x v).stepTaken = s.stepTaken := rfl

/-! ### `setRegs` -/

@[simp] theorem State.setRegs_regs (r : Vector Byte 16) : (s.setRegs r).regs = r := rfl
@[simp] theorem State.setRegs_pc (r : Vector Byte 16) : (s.setRegs r).pc = s.pc := rfl
@[simp] theorem State.setRegs_index (r : Vector Byte 16) : (s.setRegs r).index = s.index := rfl
@[simp] theorem State.setRegs_stack (r : Vector Byte 16) : (s.setRegs r).stack = s.stack := rfl
@[simp] theorem State.setRegs_sp (r : Vector Byte 16) : (s.setRegs r).sp = s.sp := rfl
@[simp] theorem State.setRegs_dt (r : Vector Byte 16) : (s.setRegs r).dt = s.dt := rfl
@[simp] theorem State.setRegs_st (r : Vector Byte 16) : (s.setRegs r).st = s.st := rfl
@[simp] theorem State.setRegs_keys (r : Vector Byte 16) : (s.setRegs r).keys = s.keys := rfl
@[simp] theorem State.setRegs_display (r : Vector Byte 16) : (s.setRegs r).display = s.display := rfl
@[simp] theorem State.setRegs_mem (r : Vector Byte 16) : (s.setRegs r).mem = s.mem := rfl
@[simp] theorem State.setRegs_status (r : Vector Byte 16) : (s.setRegs r).status = s.status := rfl
@[simp] theorem State.setRegs_fault (r : Vector Byte 16) : (s.setRegs r).fault = s.fault := rfl
@[simp] theorem State.setRegs_cfg (r : Vector Byte 16) : (s.setRegs r).cfg = s.cfg := rfl
@[simp] theorem State.setRegs_draws (r : Vector Byte 16) : (s.setRegs r).draws = s.draws := rfl
@[simp] theorem State.setRegs_stepTaken (r : Vector Byte 16) : (s.setRegs r).stepTaken = s.stepTaken := rfl

/-! ### `setIndex` -/

@[simp] theorem State.setIndex_regs (v : Word) : (s.setIndex v).regs = s.regs := rfl
@[simp] theorem State.setIndex_pc (v : Word) : (s.setIndex v).pc = s.pc := rfl
@[simp] theorem State.setIndex_index (v : Word) : (s.setIndex v).index = v := rfl
@[simp] theorem State.setIndex_stack (v : Word) : (s.setIndex v).stack = s.stack := rfl
@[simp] theorem State.setIndex_sp (v : Word) : (s.setIndex v).sp = s.sp := rfl
@[simp] theorem State.setIndex_dt (v : Word) : (s.setIndex v).dt = s.dt := rfl
@[simp] theorem State.setIndex_st (v : Word) : (s.setIndex v).st = s.st := rfl
@[simp] theorem State.setIndex_keys (v : Word) : (s.setIndex v).keys = s.keys := rfl
@[simp] theorem State.setIndex_display (v : Word) : (s.setIndex v).display = s.display := rfl
@[simp] theorem State.setIndex_mem (v : Word) : (s.setIndex v).mem = s.mem := rfl
@[simp] theorem State.setIndex_status (v : Word) : (s.setIndex v).status = s.status := rfl
@[simp] theorem State.setIndex_fault (v : Word) : (s.setIndex v).fault = s.fault := rfl
@[simp] theorem State.setIndex_cfg (v : Word) : (s.setIndex v).cfg = s.cfg := rfl
@[simp] theorem State.setIndex_draws (v : Word) : (s.setIndex v).draws = s.draws := rfl
@[simp] theorem State.setIndex_stepTaken (v : Word) : (s.setIndex v).stepTaken = s.stepTaken := rfl

/-! ### `setDelay` -/

@[simp] theorem State.setDelay_regs (v : Byte) : (s.setDelay v).regs = s.regs := rfl
@[simp] theorem State.setDelay_pc (v : Byte) : (s.setDelay v).pc = s.pc := rfl
@[simp] theorem State.setDelay_index (v : Byte) : (s.setDelay v).index = s.index := rfl
@[simp] theorem State.setDelay_stack (v : Byte) : (s.setDelay v).stack = s.stack := rfl
@[simp] theorem State.setDelay_sp (v : Byte) : (s.setDelay v).sp = s.sp := rfl
@[simp] theorem State.setDelay_dt (v : Byte) : (s.setDelay v).dt = v := rfl
@[simp] theorem State.setDelay_st (v : Byte) : (s.setDelay v).st = s.st := rfl
@[simp] theorem State.setDelay_keys (v : Byte) : (s.setDelay v).keys = s.keys := rfl
@[simp] theorem State.setDelay_display (v : Byte) : (s.setDelay v).display = s.display := rfl
@[simp] theorem State.setDelay_mem (v : Byte) : (s.setDelay v).mem = s.mem := rfl
@[simp] theorem State.setDelay_status (v : Byte) : (s.setDelay v).status = s.status := rfl
@[simp] theorem State.setDelay_fault (v : Byte) : (s.setDelay v).fault = s.fault := rfl
@[simp] theorem State.setDelay_cfg (v : Byte) : (s.setDelay v).cfg = s.cfg := rfl
@[simp] theorem State.setDelay_draws (v : Byte) : (s.setDelay v).draws = s.draws := rfl
@[simp] theorem State.setDelay_stepTaken (v : Byte) : (s.setDelay v).stepTaken = s.stepTaken := rfl

/-! ### `setSound` -/

@[simp] theorem State.setSound_regs (v : Byte) : (s.setSound v).regs = s.regs := rfl
@[simp] theorem State.setSound_pc (v : Byte) : (s.setSound v).pc = s.pc := rfl
@[simp] theorem State.setSound_index (v : Byte) : (s.setSound v).index = s.index := rfl
@[simp] theorem State.setSound_stack (v : Byte) : (s.setSound v).stack = s.stack := rfl
@[simp] theorem State.setSound_sp (v : Byte) : (s.setSound v).sp = s.sp := rfl
@[simp] theorem State.setSound_dt (v : Byte) : (s.setSound v).dt = s.dt := rfl
@[simp] theorem State.setSound_st (v : Byte) : (s.setSound v).st = v := rfl
@[simp] theorem State.setSound_keys (v : Byte) : (s.setSound v).keys = s.keys := rfl
@[simp] theorem State.setSound_display (v : Byte) : (s.setSound v).display = s.display := rfl
@[simp] theorem State.setSound_mem (v : Byte) : (s.setSound v).mem = s.mem := rfl
@[simp] theorem State.setSound_status (v : Byte) : (s.setSound v).status = s.status := rfl
@[simp] theorem State.setSound_fault (v : Byte) : (s.setSound v).fault = s.fault := rfl
@[simp] theorem State.setSound_cfg (v : Byte) : (s.setSound v).cfg = s.cfg := rfl
@[simp] theorem State.setSound_draws (v : Byte) : (s.setSound v).draws = s.draws := rfl
@[simp] theorem State.setSound_stepTaken (v : Byte) : (s.setSound v).stepTaken = s.stepTaken := rfl

/-! ### `setDisplay` -/

@[simp] theorem State.setDisplay_regs (d : Display) : (s.setDisplay d).regs = s.regs := rfl
@[simp] theorem State.setDisplay_pc (d : Display) : (s.setDisplay d).pc = s.pc := rfl
@[simp] theorem State.setDisplay_index (d : Display) : (s.setDisplay d).index = s.index := rfl
@[simp] theorem State.setDisplay_stack (d : Display) : (s.setDisplay d).stack = s.stack := rfl
@[simp] theorem State.setDisplay_sp (d : Display) : (s.setDisplay d).sp = s.sp := rfl
@[simp] theorem State.setDisplay_dt (d : Display) : (s.setDisplay d).dt = s.dt := rfl
@[simp] theorem State.setDisplay_st (d : Display) : (s.setDisplay d).st = s.st := rfl
@[simp] theorem State.setDisplay_keys (d : Display) : (s.setDisplay d).keys = s.keys := rfl
@[simp] theorem State.setDisplay_display (d : Display) : (s.setDisplay d).display = d := rfl
@[simp] theorem State.setDisplay_mem (d : Display) : (s.setDisplay d).mem = s.mem := rfl
@[simp] theorem State.setDisplay_status (d : Display) : (s.setDisplay d).status = s.status := rfl
@[simp] theorem State.setDisplay_fault (d : Display) : (s.setDisplay d).fault = s.fault := rfl
@[simp] theorem State.setDisplay_cfg (d : Display) : (s.setDisplay d).cfg = s.cfg := rfl
@[simp] theorem State.setDisplay_draws (d : Display) : (s.setDisplay d).draws = s.draws := rfl
@[simp] theorem State.setDisplay_stepTaken (d : Display) : (s.setDisplay d).stepTaken = s.stepTaken := rfl

/-! ### `setMem` -/

@[simp] theorem State.setMem_regs (m : Memory) : (s.setMem m).regs = s.regs := rfl
@[simp] theorem State.setMem_pc (m : Memory) : (s.setMem m).pc = s.pc := rfl
@[simp] theorem State.setMem_index (m : Memory) : (s.setMem m).index = s.index := rfl
@[simp] theorem State.setMem_stack (m : Memory) : (s.setMem m).stack = s.stack := rfl
@[simp] theorem State.setMem_sp (m : Memory) : (s.setMem m).sp = s.sp := rfl
@[simp] theorem State.setMem_dt (m : Memory) : (s.setMem m).dt = s.dt := rfl
@[simp] theorem State.setMem_st (m : Memory) : (s.setMem m).st = s.st := rfl
@[simp] theorem State.setMem_keys (m : Memory) : (s.setMem m).keys = s.keys := rfl
@[simp] theorem State.setMem_display (m : Memory) : (s.setMem m).display = s.display := rfl
@[simp] theorem State.setMem_mem (m : Memory) : (s.setMem m).mem = m := rfl
@[simp] theorem State.setMem_status (m : Memory) : (s.setMem m).status = s.status := rfl
@[simp] theorem State.setMem_fault (m : Memory) : (s.setMem m).fault = s.fault := rfl
@[simp] theorem State.setMem_cfg (m : Memory) : (s.setMem m).cfg = s.cfg := rfl
@[simp] theorem State.setMem_draws (m : Memory) : (s.setMem m).draws = s.draws := rfl
@[simp] theorem State.setMem_stepTaken (m : Memory) : (s.setMem m).stepTaken = s.stepTaken := rfl

/-! ### `countDraw` -/

@[simp] theorem State.countDraw_regs : (s.countDraw).regs = s.regs := rfl
@[simp] theorem State.countDraw_pc : (s.countDraw).pc = s.pc := rfl
@[simp] theorem State.countDraw_index : (s.countDraw).index = s.index := rfl
@[simp] theorem State.countDraw_stack : (s.countDraw).stack = s.stack := rfl
@[simp] theorem State.countDraw_sp : (s.countDraw).sp = s.sp := rfl
@[simp] theorem State.countDraw_dt : (s.countDraw).dt = s.dt := rfl
@[simp] theorem State.countDraw_st : (s.countDraw).st = s.st := rfl
@[simp] theorem State.countDraw_keys : (s.countDraw).keys = s.keys := rfl
@[simp] theorem State.countDraw_display : (s.countDraw).display = s.display := rfl
@[simp] theorem State.countDraw_mem : (s.countDraw).mem = s.mem := rfl
@[simp] theorem State.countDraw_status : (s.countDraw).status = s.status := rfl
@[simp] theorem State.countDraw_fault : (s.countDraw).fault = s.fault := rfl
@[simp] theorem State.countDraw_cfg : (s.countDraw).cfg = s.cfg := rfl
@[simp] theorem State.countDraw_draws : (s.countDraw).draws = s.draws + 1 := rfl
@[simp] theorem State.countDraw_stepTaken : (s.countDraw).stepTaken = s.stepTaken := rfl

/-! ### `markStep` -/

@[simp] theorem State.markStep_regs : (s.markStep).regs = s.regs := rfl
@[simp] theorem State.markStep_pc : (s.markStep).pc = s.pc := rfl
@[simp] theorem State.markStep_index : (s.markStep).index = s.index := rfl
@[simp] theorem State.markStep_stack : (s.markStep).stack = s.stack := rfl
@[simp] theorem State.markStep_sp : (s.markStep).sp = s.sp := rfl
@[simp] theorem State.markStep_dt : (s.markStep).dt = s.dt := rfl
@[simp] theorem State.markStep_st : (s.markStep).st = s.st := rfl
@[simp] theorem State.markStep_keys : (s.markStep).keys = s.keys := rfl
@[simp] theorem State.markStep_display : (s.markStep).display = s.display := rfl
@[simp] theorem State.markStep_mem : (s.markStep).mem = s.mem := rfl
@[simp] theorem State.markStep_status : (s.markStep).status = s.status := rfl
@[simp] theorem State.markStep_fault : (s.markStep).fault = s.fault := rfl
@[simp] theorem State.markStep_cfg : (s.markStep).cfg = s.cfg := rfl
@[simp] theorem State.markStep_draws : (s.markStep).draws = s.draws := rfl
@[simp] theorem State.markStep_stepTaken : (s.markStep).stepTaken = true := rfl

/-! ### `complete` -/

@[simp] theorem State.complete_regs (v : Word) : (s.complete v).regs = s.regs := rfl
@[simp] theorem State.complete_pc (v : Word) : (s.complete v).pc = v := rfl
@[simp] theorem State.complete_index (v : Word) : (s.complete v).index = s.index := rfl
@[simp] theorem State.complete_stack (v : Word) : (s.complete v).stack = s.stack := rfl
@[simp] theorem State.complete_sp (v : Word) : (s.complete v).sp = s.sp := rfl
@[simp] theorem State.complete_dt (v : Word) : (s.complete v).dt = s.dt := rfl
@[simp] theorem State.complete_st (v : Word) : (s.complete v).st = s.st := rfl
@[simp] theorem State.complete_keys (v : Word) : (s.complete v).keys = s.keys := rfl
@[simp] theorem State.complete_display (v : Word) : (s.complete v).display = s.display := rfl
@[simp] theorem State.complete_mem (v : Word) : (s.complete v).mem = s.mem := rfl
@[simp] theorem State.complete_status (v : Word) : (s.complete v).status = .stepped := rfl
@[simp] theorem State.complete_fault (v : Word) : (s.complete v).fault = s.fault := rfl
@[simp] theorem State.complete_cfg (v : Word) : (s.complete v).cfg = s.cfg := rfl
@[simp] theorem State.complete_draws (v : Word) : (s.complete v).draws = s.draws := rfl
@[simp] theorem State.complete_stepTaken (v : Word) : (s.complete v).stepTaken = s.stepTaken := rfl

/-! ### `enterFault` -/

@[simp] theorem State.enterFault_regs (k : FaultKind) (w : Option Word) (a : Option Nat) : (s.enterFault k w a).regs = s.regs := rfl
@[simp] theorem State.enterFault_pc (k : FaultKind) (w : Option Word) (a : Option Nat) : (s.enterFault k w a).pc = s.pc := rfl
@[simp] theorem State.enterFault_index (k : FaultKind) (w : Option Word) (a : Option Nat) : (s.enterFault k w a).index = s.index := rfl
@[simp] theorem State.enterFault_stack (k : FaultKind) (w : Option Word) (a : Option Nat) : (s.enterFault k w a).stack = s.stack := rfl
@[simp] theorem State.enterFault_sp (k : FaultKind) (w : Option Word) (a : Option Nat) : (s.enterFault k w a).sp = s.sp := rfl
@[simp] theorem State.enterFault_dt (k : FaultKind) (w : Option Word) (a : Option Nat) : (s.enterFault k w a).dt = s.dt := rfl
@[simp] theorem State.enterFault_st (k : FaultKind) (w : Option Word) (a : Option Nat) : (s.enterFault k w a).st = s.st := rfl
@[simp] theorem State.enterFault_keys (k : FaultKind) (w : Option Word) (a : Option Nat) : (s.enterFault k w a).keys = s.keys := rfl
@[simp] theorem State.enterFault_display (k : FaultKind) (w : Option Word) (a : Option Nat) : (s.enterFault k w a).display = s.display := rfl
@[simp] theorem State.enterFault_mem (k : FaultKind) (w : Option Word) (a : Option Nat) : (s.enterFault k w a).mem = s.mem := rfl
@[simp] theorem State.enterFault_status (k : FaultKind) (w : Option Word) (a : Option Nat) : (s.enterFault k w a).status = .faulted := rfl
@[simp] theorem State.enterFault_fault (k : FaultKind) (w : Option Word) (a : Option Nat) : (s.enterFault k w a).fault = some ⟨k, w, s.pc, a⟩ := rfl
@[simp] theorem State.enterFault_cfg (k : FaultKind) (w : Option Word) (a : Option Nat) : (s.enterFault k w a).cfg = s.cfg := rfl
@[simp] theorem State.enterFault_draws (k : FaultKind) (w : Option Word) (a : Option Nat) : (s.enterFault k w a).draws = s.draws := rfl
@[simp] theorem State.enterFault_stepTaken (k : FaultKind) (w : Option Word) (a : Option Nat) : (s.enterFault k w a).stepTaken = s.stepTaken := rfl

/-! ### `tick` -/

@[simp] theorem tick_regs : (tick s).regs = s.regs := rfl
@[simp] theorem tick_pc : (tick s).pc = s.pc := rfl
@[simp] theorem tick_index : (tick s).index = s.index := rfl
@[simp] theorem tick_stack : (tick s).stack = s.stack := rfl
@[simp] theorem tick_sp : (tick s).sp = s.sp := rfl
@[simp] theorem tick_dt : (tick s).dt = countDown s.dt := rfl
@[simp] theorem tick_st : (tick s).st = countDown s.st := rfl
@[simp] theorem tick_keys : (tick s).keys = s.keys := rfl
@[simp] theorem tick_display : (tick s).display = s.display := rfl
@[simp] theorem tick_mem : (tick s).mem = s.mem := rfl
@[simp] theorem tick_status : (tick s).status = s.status := rfl
@[simp] theorem tick_fault : (tick s).fault = s.fault := rfl
@[simp] theorem tick_cfg : (tick s).cfg = s.cfg := rfl
@[simp] theorem tick_draws : (tick s).draws = s.draws := rfl
@[simp] theorem tick_stepTaken : (tick s).stepTaken = s.stepTaken := rfl

/-! ### `setKeys` -/

@[simp] theorem setKeys_regs (k : Vector Bool 16) : (setKeys k s).regs = s.regs := rfl
@[simp] theorem setKeys_pc (k : Vector Bool 16) : (setKeys k s).pc = s.pc := rfl
@[simp] theorem setKeys_index (k : Vector Bool 16) : (setKeys k s).index = s.index := rfl
@[simp] theorem setKeys_stack (k : Vector Bool 16) : (setKeys k s).stack = s.stack := rfl
@[simp] theorem setKeys_sp (k : Vector Bool 16) : (setKeys k s).sp = s.sp := rfl
@[simp] theorem setKeys_dt (k : Vector Bool 16) : (setKeys k s).dt = s.dt := rfl
@[simp] theorem setKeys_st (k : Vector Bool 16) : (setKeys k s).st = s.st := rfl
@[simp] theorem setKeys_keys (k : Vector Bool 16) : (setKeys k s).keys = k := rfl
@[simp] theorem setKeys_display (k : Vector Bool 16) : (setKeys k s).display = s.display := rfl
@[simp] theorem setKeys_mem (k : Vector Bool 16) : (setKeys k s).mem = s.mem := rfl
@[simp] theorem setKeys_status (k : Vector Bool 16) : (setKeys k s).status = s.status := rfl
@[simp] theorem setKeys_fault (k : Vector Bool 16) : (setKeys k s).fault = s.fault := rfl
@[simp] theorem setKeys_cfg (k : Vector Bool 16) : (setKeys k s).cfg = s.cfg := rfl
@[simp] theorem setKeys_draws (k : Vector Bool 16) : (setKeys k s).draws = s.draws := rfl
@[simp] theorem setKeys_stepTaken (k : Vector Bool 16) : (setKeys k s).stepTaken = s.stepTaken := rfl

/-! ### Registers through the updates -/

@[simp] theorem State.setReg_reg_self (x : RegIdx) (v : Byte) : (s.setReg x v).reg x = v := by
  simp [State.reg, State.setReg]

theorem State.setReg_reg_ne {x k : RegIdx} (h : k ≠ x) (v : Byte) : (s.setReg x v).reg k = s.reg k := by
  have : x.val ≠ k.val := fun e => h (Fin.ext e.symm)
  simp [State.reg, State.setReg, Vector.getElem_set_ne _ _ this]

theorem State.setReg_reg (x k : RegIdx) (v : Byte) : (s.setReg x v).reg k = if k = x then v else s.reg k := by
  by_cases h : k = x
  · subst h; simp
  · simp [h, State.setReg_reg_ne]

@[simp] theorem State.setIndex_reg (v : Word) (k : RegIdx) : (s.setIndex v).reg k = s.reg k := rfl
@[simp] theorem State.setDelay_reg (v : Byte) (k : RegIdx) : (s.setDelay v).reg k = s.reg k := rfl
@[simp] theorem State.setSound_reg (v : Byte) (k : RegIdx) : (s.setSound v).reg k = s.reg k := rfl
@[simp] theorem State.setDisplay_reg (d : Display) (k : RegIdx) : (s.setDisplay d).reg k = s.reg k := rfl
@[simp] theorem State.setMem_reg (m : Memory) (k : RegIdx) : (s.setMem m).reg k = s.reg k := rfl
@[simp] theorem State.countDraw_reg (k : RegIdx) : (s.countDraw).reg k = s.reg k := rfl
@[simp] theorem State.markStep_reg (k : RegIdx) : (s.markStep).reg k = s.reg k := rfl
@[simp] theorem State.complete_reg (v : Word) (k : RegIdx) : (s.complete v).reg k = s.reg k := rfl
@[simp] theorem State.enterFault_reg (f : FaultKind) (w : Option Word) (a : Option Nat) (k : RegIdx) : (s.enterFault f w a).reg k = s.reg k := rfl
@[simp] theorem State.setRegs_reg (r : Vector Byte 16) (k : RegIdx) : (s.setRegs r).reg k = r[k] := rfl
@[simp] theorem tick_reg (k : RegIdx) : (tick s).reg k = s.reg k := rfl
@[simp] theorem setKeys_reg (q : Vector Bool 16) (k : RegIdx) : (setKeys q s).reg k = s.reg k := rfl

end Sys2Proof.Machine
end

