-- ==== Sys2Proof/Laws/Ops.lean ====
section
/-! SUPPORT. What each shared operation of the meanings can do, said once. -/

namespace Sys2Proof.Machine

variable {s t : State}

/-! ### Ends of an instruction -/

theorem goto_eq (s : State) (v : Word) : s.goto v = .next (s.complete v) := rfl

theorem advance_eq (s : State) : s.advance = .next (s.complete (s.pc + 2)) := rfl

theorem skipIf_eq (s : State) (c : Bool) :
    s.skipIf c = .next (s.complete (if c then s.pc + 4 else s.pc + 2)) := rfl

theorem raiseOwn_eq (i : Instr) (k : FaultKind) (a : Option Nat) (s : State) :
    raiseOwn i k a s = .next (s.enterFault k (some (encode i)) a) := rfl

theorem writeReg_eq (x : RegIdx) (v : Byte) (s : State) :
    writeReg x v s = .next ((s.setReg x v).complete (s.pc + 2)) := rfl

theorem flagOp_eq (x : RegIdx) (res flag : Vector Byte 16 → Byte) (s : State) :
    flagOp x res flag s =
      .next ((s.setRegs (writeFlagOp s.cfg.vfAlias x res flag s.regs)).complete (s.pc + 2)) := rfl

theorem storeAtIndex_eq (bytes : List Byte) (s : State) :
    storeAtIndex bytes s =
      .next ((s.setMem (Memory.writeBytes s.mem s.index.toNat bytes)).complete (s.pc + 2)) := rfl

/-! ### The stack -/

/-- A pop with entries on the stack gives the top one, and drops it. -/
theorem pop_of_pos (h : 0 < s.sp.val) :
    s.pop = some (s.stack[s.sp.val - 1]'(by omega), { s with sp := ⟨s.sp.val - 1, by omega⟩ }) := by
  simp [State.pop, h]

theorem pop_of_zero (h : s.sp.val = 0) : s.pop = none := by simp [State.pop, h]

/-- A push with room on the stack writes `S[SP]` and raises `SP`. -/
theorem push_of_lt (v : Word) (h : s.sp.val < 16) :
    s.push v = some { s with stack := s.stack.set s.sp.val v, sp := ⟨s.sp.val + 1, by omega⟩ } := by
  simp [State.push, h]

theorem push_of_full (v : Word) (h : s.sp.val = 16) : s.push v = none := by simp [State.push, h]

/-! ### Checks -/

theorem leavesMemory_iff (s : State) (count : Nat) :
    s.leavesMemory count = true ↔ 0 < count ∧ 0xFFF < s.index.toNat + (count - 1) := by
  simp [State.leavesMemory, State.at]

theorem touchesFont_iff (s : State) (count : Nat) :
    s.touchesFont count = true ↔
      s.index.toNat ≤ s.cfg.fontBase + 79 ∧ s.cfg.fontBase ≤ s.index.toNat + (count - 1) := by
  unfold State.touchesFont
  rw [decide_eq_true_iff]
  rfl

/-- The range check passes: the access goes on. -/
theorem checkRange_pass {count : Nat} (i : Instr) (ok : Result) (h : s.leavesMemory count = false) :
    checkRange i count s ok = ok := by simp [checkRange, h]

/-- The range check fails: the instruction faults. -/
theorem checkRange_fail {count : Nat} (i : Instr) (ok : Result) (h : s.leavesMemory count = true) :
    checkRange i count s ok =
      .next (s.enterFault .memoryOutOfRange (some (encode i)) (some (max s.index.toNat 0x1000))) := by
  simp [checkRange, h, raiseOwn_eq, State.firstOutside]

/-- Everything a checked access can do. -/
theorem checkRange_cases (i : Instr) (count : Nat) (s : State) (ok : Result) :
    (s.leavesMemory count = true ∧ checkRange i count s ok =
      .next (s.enterFault .memoryOutOfRange (some (encode i)) (some (max s.index.toNat 0x1000)))) ∨
    (s.leavesMemory count = false ∧ checkRange i count s ok = ok) := by
  cases h : s.leavesMemory count
  · exact .inr ⟨rfl, checkRange_pass i ok h⟩
  · exact .inl ⟨rfl, checkRange_fail i ok h⟩

/-- Everything a checked store can do. -/
theorem checkStore_cases (i : Instr) (count : Nat) (s : State) (ok : Result) :
    (s.leavesMemory count = true ∧ checkStore i count s ok =
      .next (s.enterFault .memoryOutOfRange (some (encode i)) (some (max s.index.toNat 0x1000)))) ∨
    (s.leavesMemory count = false ∧ s.cfg.fontWriteProtect = true ∧ s.touchesFont count = true ∧
      checkStore i count s ok =
        .next (s.enterFault .fontRegionWrite (some (encode i)) (some (max s.index.toNat s.cfg.fontBase)))) ∨
    (s.leavesMemory count = false ∧ (s.cfg.fontWriteProtect = false ∨ s.touchesFont count = false) ∧
      checkStore i count s ok = ok) := by
  unfold checkStore
  rcases checkRange_cases i count s
    (if s.cfg.fontWriteProtect && s.touchesFont count then
      raiseOwn i .fontRegionWrite (some (max s.index.toNat s.cfg.fontBase)) s else ok) with ⟨h, e⟩ | ⟨h, e⟩
  · exact .inl ⟨h, e⟩
  · rw [e]
    cases hp : s.cfg.fontWriteProtect <;> cases hf : s.touchesFont count <;> simp [h, raiseOwn_eq]

/-- Everything a checked write of the index register can do. -/
theorem setIndexChecked_cases (i : Instr) (v : Nat) (s : State) :
    (0xFFF < v ∧ setIndexChecked i v s = .next (s.enterFault .memoryOutOfRange (some (encode i)) (some v))) ∨
    (v ≤ 0xFFF ∧ setIndexChecked i v s = .next ((s.setIndex (BitVec.ofNat 16 v)).complete (s.pc + 2))) := by
  by_cases h : 0xFFF < v
  · exact .inl ⟨h, by simp [setIndexChecked, h, raiseOwn_eq]⟩
  · exact .inr ⟨by omega, by simp [setIndexChecked, h, advance_eq]⟩

/-! ### Keys -/

theorem keyPressed_of_lt {k : Byte} (h : k.toNat < 16) : s.keyPressed k = some (s.keys[k.toNat]) := by
  simp [State.keyPressed, h]

theorem keyPressed_of_ge {k : Byte} (h : 16 ≤ k.toNat) : s.keyPressed k = none := by
  simp [State.keyPressed, h]

/-- A pressed key is found, and no lower one is pressed. -/
theorem leastKey_some {k : Fin 16} (h : s.leastKey = some k) :
    s.keys[k] = true ∧ ∀ j : Fin 16, j < k → s.keys[j] = false := by
  unfold State.leastKey at h
  rw [List.find?_eq_some_iff_getElem] at h
  obtain ⟨hk, i, hi, e, hlt⟩ := h
  refine ⟨hk, fun j hj => ?_⟩
  have hik : i = k.val := by have := congrArg Fin.val e; simpa using this
  have := hlt j.val (by omega)
  simpa using this

theorem leastKey_none : s.leastKey = none ↔ ∀ k : Fin 16, s.keys[k] = false := by
  simp [State.leastKey, List.find?_eq_none]

/-! ### Bytes stored and loaded -/

@[simp] theorem decimalDigits_length (v : Byte) : (decimalDigits v).length = 3 := rfl

@[simp] theorem lowRegs_length (s : State) (x : RegIdx) : (s.lowRegs x).length = x.val + 1 := by
  simp [State.lowRegs]

theorem lowRegs_getElem (s : State) (x : RegIdx) (k : Nat) (h : k < (s.lowRegs x).length) :
    (s.lowRegs x)[k] = s.reg ⟨k, by rw [lowRegs_length] at h; omega⟩ := by
  simp [State.lowRegs, State.reg]

@[simp] theorem loadedRegs_getElem (s : State) (x k : RegIdx) :
    (s.loadedRegs x)[k] = if k ≤ x then s.byteAt k.val else s.reg k := by
  simp [State.loadedRegs]

/-! ### Flags -/

theorem b2u_eq_one (c : Bool) : b2u c = 1 ↔ c = true := by cases c <;> decide

theorem b2u_eq_zero (c : Bool) : b2u c = 0 ↔ c = false := by cases c <;> decide

/-- Every register after a write of one. -/
theorem set_getElem (r : Vector Byte 16) (x k : RegIdx) (v : Byte) :
    (r.set x v)[k] = if k = x then v else r[k] := by
  by_cases h : k = x
  · subst h
    simp
  · have h' : x.val ≠ k.val := fun e => h (Fin.ext e.symm)
    simp [h, h']

/-- Every register after the writes of `8xy4`. -/
theorem writeResultThenFlag_getElem (x k : RegIdx) (res flag : Byte) (r : Vector Byte 16) :
    (writeResultThenFlag x res flag r)[k] = if k = vf then flag else if k = x then res else r[k] := by
  rw [writeResultThenFlag, set_getElem, set_getElem]

/-- Every register after a flag instruction, under each reading. -/
theorem writeFlagOp_getElem (reading : VfAlias) (x k : RegIdx) (res flag : Vector Byte 16 → Byte)
    (r : Vector Byte 16) :
    (writeFlagOp reading x res flag r)[k] =
      match reading with
      | .flagLast => if k = vf then flag r else if k = x then res r else r[k]
      | .tableOrder => if k = x then res r else if k = vf then flag r else r[k]
      | .sequential => if k = x then res (r.set vf (flag r)) else if k = vf then flag r else r[k] := by
  cases reading <;> simp only [writeFlagOp] <;> rw [set_getElem, set_getElem]

/-- The registers other than `Vx` and `VF` survive a flag instruction, under every reading. -/
theorem writeFlagOp_other (reading : VfAlias) {x k : RegIdx} (res flag : Vector Byte 16 → Byte) (r : Vector Byte 16)
    (hx : k ≠ x) (hf : k ≠ vf) : (writeFlagOp reading x res flag r)[k] = r[k] := by
  rw [writeFlagOp_getElem]
  cases reading <;> simp [hx, hf]

/-! ### Timers -/

theorem countDown_toNat (v : Byte) : (countDown v).toNat = v.toNat - 1 := by
  unfold countDown
  split
  · next h => subst h; rfl
  · next h => bv_omega

end Sys2Proof.Machine
end

