-- ==== Sys2Proof/Laws/Display.lean ====
section
/-! SUPPORT. Pixels after the operations of the display buffer. -/

namespace Sys2Proof.Machine

/-- Two displays with the same pixels are the same display. -/
theorem Display.ext_pixel {d e : Display} (h : ∀ y x, y < 32 → x < 64 → d.pixel x y = e.pixel x y) : d = e := by
  apply Vector.ext
  intro y hy
  apply Vector.ext
  intro x hx
  have := h y x hy hx
  simpa [Display.pixel, Nat.mod_eq_of_lt hy, Nat.mod_eq_of_lt hx] using this

@[simp] theorem Display.pixel_clear (x y : Nat) : Display.pixel Display.clear x y = false := by
  simp [Display.pixel, Display.clear]

/-- Coordinates count modulo 64 and 32. -/
theorem Display.pixel_mod (d : Display) (x y : Nat) : d.pixel (x % 64) (y % 32) = d.pixel x y := by
  simp [Display.pixel]

theorem Display.xorWrite_snd (d : Display) (x y : Nat) (b : Bool) : (d.xorWrite x y b).2 = (d.pixel x y && b) := rfl

/-- A pixel of a display with one row replaced. -/
theorem Display.xorWrite_fst (d : Display) (x y : Nat) (b : Bool) :
    (d.xorWrite x y b).1 =
      d.set (y % 32) ((d[y % 32]'(Nat.mod_lt y (by decide))).set (x % 64) (d.pixel x y ^^ b)
        (Nat.mod_lt x (by decide))) (Nat.mod_lt y (by decide)) := rfl

end Sys2Proof.Machine
end

