-- ==== Sys2Proof/Laws/Encoding.lean ====
section
/-! SUPPORT. The fields of the words that the encoder makes, format by format (30_encoding.md rule R73). -/

namespace Sys2Proof.Machine

/-! ### Format `ADDR` -/

@[simp] theorem opClass_encAddr (c : BitVec 4) (nnn : Addr) : opClass (encAddr c nnn) = c := by
  apply BitVec.eq_of_getLsbD_eq
  intro i hi
  simp only [opClass, encAddr, BitVec.getLsbD_extractLsb', BitVec.getLsbD_append]
  interval_cases i <;> simp

@[simp] theorem fieldNnn_encAddr (c : BitVec 4) (nnn : Addr) : fieldNnn (encAddr c nnn) = nnn := by
  apply BitVec.eq_of_getLsbD_eq
  intro i hi
  simp only [fieldNnn, encAddr, BitVec.getLsbD_extractLsb', BitVec.getLsbD_append]
  interval_cases i <;> simp

/-! ### Formats `XKK` and `XF` -/

@[simp] theorem opClass_encXkk (c : BitVec 4) (x : RegIdx) (kk : Byte) : opClass (encXkk c x kk) = c := by
  apply BitVec.eq_of_getLsbD_eq
  intro i hi
  simp only [opClass, encXkk, BitVec.getLsbD_extractLsb', BitVec.getLsbD_append]
  interval_cases i <;> simp

@[simp] theorem fieldX_encXkk (c : BitVec 4) (x : RegIdx) (kk : Byte) : fieldX (encXkk c x kk) = x := by
  have : (encXkk c x kk).extractLsb' 8 4 = BitVec.ofFin (w := 4) x := by
    apply BitVec.eq_of_getLsbD_eq
    intro i hi
    simp only [encXkk, BitVec.getLsbD_extractLsb', BitVec.getLsbD_append]
    interval_cases i <;> simp
  rw [fieldX, this]

@[simp] theorem fieldKk_encXkk (c : BitVec 4) (x : RegIdx) (kk : Byte) : fieldKk (encXkk c x kk) = kk := by
  apply BitVec.eq_of_getLsbD_eq
  intro i hi
  simp only [fieldKk, encXkk, BitVec.getLsbD_extractLsb', BitVec.getLsbD_append]
  interval_cases i <;> simp

/-! ### Formats `XY` and `XYN` -/

@[simp] theorem opClass_encXyn (c : BitVec 4) (x y : RegIdx) (n : BitVec 4) : opClass (encXyn c x y n) = c := by
  apply BitVec.eq_of_getLsbD_eq
  intro i hi
  simp only [opClass, encXyn, BitVec.getLsbD_extractLsb', BitVec.getLsbD_append]
  interval_cases i <;> simp

@[simp] theorem fieldX_encXyn (c : BitVec 4) (x y : RegIdx) (n : BitVec 4) : fieldX (encXyn c x y n) = x := by
  have : (encXyn c x y n).extractLsb' 8 4 = BitVec.ofFin (w := 4) x := by
    apply BitVec.eq_of_getLsbD_eq
    intro i hi
    simp only [encXyn, BitVec.getLsbD_extractLsb', BitVec.getLsbD_append]
    interval_cases i <;> simp
  rw [fieldX, this]

@[simp] theorem fieldY_encXyn (c : BitVec 4) (x y : RegIdx) (n : BitVec 4) : fieldY (encXyn c x y n) = y := by
  have : (encXyn c x y n).extractLsb' 4 4 = BitVec.ofFin (w := 4) y := by
    apply BitVec.eq_of_getLsbD_eq
    intro i hi
    simp only [encXyn, BitVec.getLsbD_extractLsb', BitVec.getLsbD_append]
    interval_cases i <;> simp
  rw [fieldY, this]

@[simp] theorem nibble4_encXyn (c : BitVec 4) (x y : RegIdx) (n : BitVec 4) : nibble4 (encXyn c x y n) = n := by
  apply BitVec.eq_of_getLsbD_eq
  intro i hi
  simp only [nibble4, encXyn, BitVec.getLsbD_extractLsb', BitVec.getLsbD_append]
  interval_cases i <;> simp

/-! ### The patterns are the formats -/

theorem nib_eq_ofFin (x : Fin 16) : nib x = BitVec.ofFin (w := 4) x := by
  apply BitVec.eq_of_toNat_eq
  simp [nib]

theorem patNnn_eq (c : BitVec 4) (nnn : Addr) : patNnn c nnn = encAddr c nnn := rfl

theorem patXkk_eq (c : BitVec 4) (x : RegIdx) (kk : Byte) : patXkk c x kk = encXkk c x kk := by
  simp only [patXkk, encXkk, nib_eq_ofFin]

theorem patXyn_eq (c : BitVec 4) (x y : RegIdx) (n : BitVec 4) : patXyn c x y n = encXyn c x y n := by
  simp only [patXyn, encXyn, nib_eq_ofFin]

end Sys2Proof.Machine
end

