-- ==== Sys2Proof/Laws/Step.lean ====
section
/-! SUPPORT. Everything a step can do, said once. -/

namespace Sys2Proof.Machine

variable {s t : State}

variable (run : Instr → State → Result)

theorem stepBy_of_fault (h : s.fault.isSome = true) : stepBy run s = .next s := by
  simp [stepBy, h, stepWhenFaulted]

theorem stepBy_of_instr {i : Instr} (h : s.fault = none) (hf : s.fetch = .instr i) :
    stepBy run s = run i s.markStep := by
  simp [stepBy, h, hf]

theorem stepBy_of_fetchFault {k : FaultKind} {w : Option Word} {a : Option Nat} (h : s.fault = none)
    (hf : s.fetch = .fault k w a) : stepBy run s = .next (s.markStep.enterFault k w a) := by
  simp [stepBy, h, hf, raiseFault]

/-- A step finds a recorded fault, or runs the instruction it fetched, or records the fault of its fetch. -/
theorem stepBy_cases (s : State) :
    (s.fault.isSome = true ∧ stepBy run s = .next s) ∨
    (∃ i, s.fault = none ∧ s.fetch = .instr i ∧ stepBy run s = run i s.markStep) ∨
    (∃ k w a, s.fault = none ∧ s.fetch = .fault k w a ∧ stepBy run s = .next (s.markStep.enterFault k w a)) := by
  cases h : s.fault with
  | some r => exact .inl ⟨rfl, stepBy_of_fault run (by simp [h])⟩
  | none =>
    cases hf : s.fetch with
    | instr i => exact .inr (.inl ⟨i, rfl, rfl, stepBy_of_instr run h hf⟩)
    | fault k w a => exact .inr (.inr ⟨k, w, a, rfl, rfl, stepBy_of_fetchFault run h hf⟩)

theorem step_of_fault (h : s.fault.isSome = true) : step s = .next s := stepBy_of_fault exec h

theorem step_of_instr {i : Instr} (h : s.fault = none) (hf : s.fetch = .instr i) : step s = exec i s.markStep :=
  stepBy_of_instr exec h hf

theorem step_of_fetchFault {k : FaultKind} {w : Option Word} {a : Option Nat} (h : s.fault = none)
    (hf : s.fetch = .fault k w a) : step s = .next (s.markStep.enterFault k w a) :=
  stepBy_of_fetchFault exec h hf

theorem step_cases (s : State) :
    (s.fault.isSome = true ∧ step s = .next s) ∨
    (∃ i, s.fault = none ∧ s.fetch = .instr i ∧ step s = exec i s.markStep) ∨
    (∃ k w a, s.fault = none ∧ s.fetch = .fault k w a ∧ step s = .next (s.markStep.enterFault k w a)) :=
  stepBy_cases exec s

/-- What the fetch of an instruction says of the state. -/
theorem fetch_instr {i : Instr} (h : s.fetch = .instr i) :
    s.pc.toNat ≤ 0xFFE ∧ (s.cfg.fetchAlignCheck && s.pc.getLsbD 0) = false ∧ decodeWord s.wordAtPc = some i := by
  unfold State.fetch at h
  split at h
  · cases h
  · split at h
    · cases h
    · next h1 h2 =>
      split at h
      · next j hj => cases h; exact ⟨by omega, by simpa using h2, hj⟩
      · cases h

/-- The three faults of a fetch. -/
theorem fetch_fault {k : FaultKind} {w : Option Word} {a : Option Nat} (h : s.fetch = .fault k w a) :
    (0xFFE < s.pc.toNat ∧ k = .memoryOutOfRange ∧ w = none ∧ a = some (max s.pc.toNat 0x1000)) ∨
    (s.pc.toNat ≤ 0xFFE ∧ s.cfg.fetchAlignCheck = true ∧ s.pc.getLsbD 0 = true ∧ k = .misalignedFetch ∧ w = none ∧
      a = some s.pc.toNat) ∨
    (s.pc.toNat ≤ 0xFFE ∧ (s.cfg.fetchAlignCheck && s.pc.getLsbD 0) = false ∧ decodeWord s.wordAtPc = none ∧
      k = .unknownInstruction ∧ w = some s.wordAtPc ∧ a = none) := by
  unfold State.fetch at h
  split at h
  · next h1 => cases h; exact .inl ⟨h1, rfl, rfl, rfl⟩
  · next h1 =>
    split at h
    · next h2 =>
      cases h
      simp only [Bool.and_eq_true] at h2
      exact .inr (.inl ⟨by omega, h2.1, h2.2, rfl, rfl, rfl⟩)
    · next h2 =>
      split at h
      · cases h
      · next hd => cases h; exact .inr (.inr ⟨by omega, by simpa using h2, hd, rfl, rfl, rfl⟩)

end Sys2Proof.Machine
end

