-- ==== Sys2Proof/Laws/Exec.lean ====
section
/-! SUPPORT. Everything each instruction can do, said once: one inversion lemma for each instruction that can end in more
than one way, and the three ways in which any instruction ends. -/

namespace Sys2Proof.Machine

/-! ### One lemma per instruction with more than one end -/

theorem execRet_cases (s : State) :
    (∃ h : 0 < s.sp.val, exec .ret s =
      .next (({ s with sp := ⟨s.sp.val - 1, by omega⟩ } : State).complete (s.stack[s.sp.val - 1]'(by omega) + 2))) ∨
    (s.sp.val = 0 ∧ exec .ret s = .next (s.enterFault .stackUnderflow (some (encode .ret)) none)) := by
  by_cases h : 0 < s.sp.val
  · exact .inl ⟨h, by simp only [exec, execRet, pop_of_pos h, goto_eq]⟩
  · exact .inr ⟨by omega, by simp only [exec, execRet, pop_of_zero (show s.sp.val = 0 by omega), raiseOwn_eq]⟩

theorem execCall_cases (nnn : Addr) (s : State) :
    (∃ h : s.sp.val < 16, exec (.call nnn) s =
      .next (({ s with stack := s.stack.set s.sp.val s.pc, sp := ⟨s.sp.val + 1, by omega⟩ } : State).complete
        (zextAddr nnn))) ∨
    (s.sp.val = 16 ∧ exec (.call nnn) s = .next (s.enterFault .stackOverflow (some (encode (.call nnn))) none)) := by
  by_cases h : s.sp.val < 16
  · exact .inl ⟨h, by simp only [exec, execCall, push_of_lt _ h, goto_eq]⟩
  · have h' : s.sp.val = 16 := by omega
    exact .inr ⟨h', by simp only [exec, execCall, push_of_full _ h', raiseOwn_eq]⟩

theorem execSkp_cases (x : RegIdx) (s : State) :
    (∃ h : (s.reg x).toNat < 16, exec (.skp x) s =
      .next (s.complete (if s.keys[(s.reg x).toNat] = true then s.pc + 4 else s.pc + 2))) ∨
    (16 ≤ (s.reg x).toNat ∧
      exec (.skp x) s = .next (s.enterFault .keyIndexOutOfRange (some (encode (.skp x))) none)) := by
  by_cases h : (s.reg x).toNat < 16
  · exact .inl ⟨h, by simp [exec, execSkp, skipOnKey, keyPressed_of_lt h, skipIf_eq]⟩
  · have h' := Nat.le_of_not_lt h
    exact .inr ⟨h', by simp only [exec, execSkp, skipOnKey, keyPressed_of_ge h', raiseOwn_eq]⟩

theorem execSknp_cases (x : RegIdx) (s : State) :
    (∃ h : (s.reg x).toNat < 16, exec (.sknp x) s =
      .next (s.complete (if s.keys[(s.reg x).toNat] = false then s.pc + 4 else s.pc + 2))) ∨
    (16 ≤ (s.reg x).toNat ∧
      exec (.sknp x) s = .next (s.enterFault .keyIndexOutOfRange (some (encode (.sknp x))) none)) := by
  by_cases h : (s.reg x).toNat < 16
  · exact .inl ⟨h, by simp [exec, execSknp, skipOnKey, keyPressed_of_lt h, skipIf_eq]⟩
  · have h' := Nat.le_of_not_lt h
    exact .inr ⟨h', by simp only [exec, execSknp, skipOnKey, keyPressed_of_ge h', raiseOwn_eq]⟩

theorem execWaitKey_cases (x : RegIdx) (s : State) :
    (∃ k : Fin 16, s.keys[k] = true ∧ (∀ j : Fin 16, j < k → s.keys[j] = false) ∧
      exec (.waitKey x) s = .next ((s.setReg x (BitVec.ofNat 8 k.val)).complete (s.pc + 2))) ∨
    ((∀ k : Fin 16, s.keys[k] = false) ∧ exec (.waitKey x) s = s.block) := by
  cases h : s.leastKey with
  | none => exact .inr ⟨leastKey_none.1 h, by simp only [exec, execWaitKey, h]⟩
  | some k =>
    obtain ⟨hk, hj⟩ := leastKey_some h
    exact .inl ⟨k, hk, hj, by simp only [exec, execWaitKey, h, writeReg_eq]⟩

theorem execAddIndex_cases (x : RegIdx) (s : State) :
    (s.at (s.reg x).toNat ≤ 0xFFF ∧ exec (.addIndex x) s =
      .next ((s.setIndex (BitVec.ofNat 16 (s.at (s.reg x).toNat))).complete (s.pc + 2))) ∨
    (0xFFF < s.at (s.reg x).toNat ∧ exec (.addIndex x) s =
      .next (s.enterFault .memoryOutOfRange (some (encode (.addIndex x))) (some (s.at (s.reg x).toNat)))) :=
  (setIndexChecked_cases (.addIndex x) (s.at (s.reg x).toNat) s).symm

theorem execLdGlyph_cases (x : RegIdx) (s : State) :
    (glyphAddr s.cfg (s.reg x) ≤ 0xFFF ∧ exec (.ldGlyph x) s =
      .next ((s.setIndex (BitVec.ofNat 16 (glyphAddr s.cfg (s.reg x)))).complete (s.pc + 2))) ∨
    (0xFFF < glyphAddr s.cfg (s.reg x) ∧ exec (.ldGlyph x) s =
      .next (s.enterFault .memoryOutOfRange (some (encode (.ldGlyph x))) (some (glyphAddr s.cfg (s.reg x))))) :=
  (setIndexChecked_cases (.ldGlyph x) (glyphAddr s.cfg (s.reg x)) s).symm

theorem execDrw_cases (x y : RegIdx) (n : Fin 16) (s : State) :
    (∃ drawn, drawn = drawRows (s.spriteBytes n.val) (s.reg x).toNat (s.reg y).toNat (s.display, false) ∧
      s.leavesMemory n.val = false ∧ exec (.drw x y n) s =
        .next (((s.setDisplay drawn.1).setReg vf (b2u drawn.2)).complete (s.pc + 2))) ∨
    (s.leavesMemory n.val = true ∧ exec (.drw x y n) s =
      .next (s.enterFault .memoryOutOfRange (some (encode (.drw x y n))) (some (max s.index.toNat 0x1000)))) := by
  rcases checkRange_cases (.drw x y n) n.val s (drawSprite x y n.val s) with ⟨h, e⟩ | ⟨h, e⟩
  · exact .inr ⟨h, e⟩
  · exact .inl ⟨_, rfl, h, e⟩

theorem execLoadRegs_cases (x : RegIdx) (s : State) :
    (s.leavesMemory (x.val + 1) = false ∧ exec (.loadRegs x) s =
      .next ((s.setRegs (s.loadedRegs x)).complete (s.pc + 2))) ∨
    (s.leavesMemory (x.val + 1) = true ∧ exec (.loadRegs x) s =
      .next (s.enterFault .memoryOutOfRange (some (encode (.loadRegs x))) (some (max s.index.toNat 0x1000)))) :=
  (checkRange_cases (.loadRegs x) (x.val + 1) s _).symm

theorem execBcd_cases (x : RegIdx) (s : State) :
    (s.leavesMemory 3 = true ∧ exec (.bcd x) s =
      .next (s.enterFault .memoryOutOfRange (some (encode (.bcd x))) (some (max s.index.toNat 0x1000)))) ∨
    (s.leavesMemory 3 = false ∧ s.cfg.fontWriteProtect = true ∧ s.touchesFont 3 = true ∧ exec (.bcd x) s =
      .next (s.enterFault .fontRegionWrite (some (encode (.bcd x))) (some (max s.index.toNat s.cfg.fontBase)))) ∨
    (s.leavesMemory 3 = false ∧ (s.cfg.fontWriteProtect = false ∨ s.touchesFont 3 = false) ∧ exec (.bcd x) s =
      .next ((s.setMem (Memory.writeBytes s.mem s.index.toNat (decimalDigits (s.reg x)))).complete (s.pc + 2))) :=
  checkStore_cases (.bcd x) 3 s _

theorem execStoreRegs_cases (x : RegIdx) (s : State) :
    (s.leavesMemory (x.val + 1) = true ∧ exec (.storeRegs x) s =
      .next (s.enterFault .memoryOutOfRange (some (encode (.storeRegs x))) (some (max s.index.toNat 0x1000)))) ∨
    (s.leavesMemory (x.val + 1) = false ∧ s.cfg.fontWriteProtect = true ∧ s.touchesFont (x.val + 1) = true ∧
      exec (.storeRegs x) s =
        .next (s.enterFault .fontRegionWrite (some (encode (.storeRegs x))) (some (max s.index.toNat s.cfg.fontBase)))) ∨
    (s.leavesMemory (x.val + 1) = false ∧
      (s.cfg.fontWriteProtect = false ∨ s.touchesFont (x.val + 1) = false) ∧ exec (.storeRegs x) s =
        .next ((s.setMem (Memory.writeBytes s.mem s.index.toNat (s.lowRegs x))).complete (s.pc + 2))) :=
  checkStore_cases (.storeRegs x) (x.val + 1) s _

/-! ### How any instruction ends -/

/-- An instruction completes, with the keypad, the fault record, the configuration and the mark of the first step as they
were; or it is an `Fx0A` that blocks; or it faults, with its own word recorded. -/
theorem exec_ends (i : Instr) (s : State) :
    (∃ (u : State) (pc : Word), exec i s = .next (u.complete pc) ∧ u.fault = s.fault ∧ u.cfg = s.cfg ∧
      u.keys = s.keys ∧ u.stepTaken = s.stepTaken) ∨
    (exec i s = s.block ∧ ∃ x, i = .waitKey x) ∨
    (∃ kind addr, exec i s = .next (s.enterFault kind (some (encode i)) addr) ∧ neverFaults i = false) := by
  cases i
  case ret =>
    rcases execRet_cases s with ⟨_, e⟩ | ⟨_, e⟩
    · exact .inl ⟨_, _, e, rfl, rfl, rfl, rfl⟩
    · exact .inr (.inr ⟨_, _, e, rfl⟩)
  case call nnn =>
    rcases execCall_cases nnn s with ⟨_, e⟩ | ⟨_, e⟩
    · exact .inl ⟨_, _, e, rfl, rfl, rfl, rfl⟩
    · exact .inr (.inr ⟨_, _, e, rfl⟩)
  case skp x =>
    rcases execSkp_cases x s with ⟨_, e⟩ | ⟨_, e⟩
    · exact .inl ⟨_, _, e, rfl, rfl, rfl, rfl⟩
    · exact .inr (.inr ⟨_, _, e, rfl⟩)
  case sknp x =>
    rcases execSknp_cases x s with ⟨_, e⟩ | ⟨_, e⟩
    · exact .inl ⟨_, _, e, rfl, rfl, rfl, rfl⟩
    · exact .inr (.inr ⟨_, _, e, rfl⟩)
  case waitKey x =>
    rcases execWaitKey_cases x s with ⟨_, _, _, e⟩ | ⟨_, e⟩
    · exact .inl ⟨_, _, e, rfl, rfl, rfl, rfl⟩
    · exact .inr (.inl ⟨e, x, rfl⟩)
  case addIndex x =>
    rcases execAddIndex_cases x s with ⟨_, e⟩ | ⟨_, e⟩
    · exact .inl ⟨_, _, e, rfl, rfl, rfl, rfl⟩
    · exact .inr (.inr ⟨_, _, e, rfl⟩)
  case ldGlyph x =>
    rcases execLdGlyph_cases x s with ⟨_, e⟩ | ⟨_, e⟩
    · exact .inl ⟨_, _, e, rfl, rfl, rfl, rfl⟩
    · exact .inr (.inr ⟨_, _, e, rfl⟩)
  case drw x y n =>
    rcases execDrw_cases x y n s with ⟨_, _, _, e⟩ | ⟨_, e⟩
    · exact .inl ⟨_, _, e, by simp, by simp, by simp, by simp⟩
    · exact .inr (.inr ⟨_, _, e, rfl⟩)
  case loadRegs x =>
    rcases execLoadRegs_cases x s with ⟨_, e⟩ | ⟨_, e⟩
    · exact .inl ⟨_, _, e, by simp, by simp, by simp, by simp⟩
    · exact .inr (.inr ⟨_, _, e, rfl⟩)
  case bcd x =>
    rcases execBcd_cases x s with ⟨_, e⟩ | ⟨_, _, _, e⟩ | ⟨_, _, e⟩
    · exact .inr (.inr ⟨_, _, e, rfl⟩)
    · exact .inr (.inr ⟨_, _, e, rfl⟩)
    · exact .inl ⟨_, _, e, by simp, by simp, by simp, by simp⟩
  case storeRegs x =>
    rcases execStoreRegs_cases x s with ⟨_, e⟩ | ⟨_, _, _, e⟩ | ⟨_, _, e⟩
    · exact .inr (.inr ⟨_, _, e, rfl⟩)
    · exact .inr (.inr ⟨_, _, e, rfl⟩)
    · exact .inl ⟨_, _, e, by simp, by simp, by simp, by simp⟩
  all_goals exact .inl ⟨_, _, rfl, rfl, rfl, rfl, rfl⟩

end Sys2Proof.Machine
end

