-- ==== Sys2Proof/Laws/HostInterface.lean ====
section
/-! SUPPORT. What the transactions of the host can do, said once. -/

namespace Sys2Proof.Machine

variable {s t : State}

/-! ### The font -/

/-- Byte `5*d + k` of a sequence of 5-byte rows is byte `k` of row `d`. -/
theorem flatten_glyphs (rows : List Glyph) (d : Nat) (k : Fin 5) (hd : d < rows.length) :
    ((rows.map Vector.toList).flatten)[5 * d + k.val]? = some (rows[d][k]) := by
  induction rows generalizing d with
  | nil => simp at hd
  | cons g rows ih =>
    have hk := k.isLt
    cases d with
    | zero =>
      rw [List.map_cons, List.flatten_cons, List.getElem?_append_left (by simp)]
      simp
    | succ d =>
      rw [List.map_cons, List.flatten_cons, List.getElem?_append_right (by simp; omega)]
      simp only [Vector.length_toList, List.getElem_cons_succ]
      rw [show 5 * (d + 1) + k.val - 5 = 5 * d + k.val by omega]
      exact ih d (by simpa using hd)

theorem length_glyphs (rows : List Glyph) : (rows.map Vector.toList).flatten.length = 5 * rows.length := by
  induction rows with
  | nil => rfl
  | cons g rows ih => simp [ih]; omega

@[simp] theorem fontBytes_length (c : Config) : (fontBytes c).length = 80 := by
  rw [fontBytes, length_glyphs]
  simp

/-- Byte `5*d + k` of the font is byte `k` of glyph `d`. -/
theorem fontBytes_getElem? (c : Config) (d : Fin 16) (k : Fin 5) :
    (fontBytes c)[5 * d.val + k.val]? = some (c.fontGlyphs[d][k]) := by
  have := flatten_glyphs c.fontGlyphs.toList d.val k (by simp)
  simpa [fontBytes] using this

/-! ### The loads -/

theorem loadFont_of_started (h : s.stepTaken = true) : loadFont s = .refused .loadAfterFirstStep := by
  simp [loadFont, h]

theorem loadFont_of_fresh (h : s.stepTaken = false) (hc : s.cfg.wf) :
    loadFont s = .next (s.setMem (Memory.writeBytes s.mem s.cfg.fontBase (fontBytes s.cfg))) := by
  simp only [loadFont, h, if_pos hc]
  rfl

theorem loadRom_of_started (rom : List Byte) (h : s.stepTaken = true) :
    loadRom rom s = .refused .loadAfterFirstStep := by simp [loadRom, h]

theorem loadRom_of_fits {rom : List Byte} (h : s.stepTaken = false) (hr : romFits rom) :
    loadRom rom s = .next (s.setMem (Memory.writeBytes s.mem Config.romBase rom)) := by
  simp only [loadRom, h, if_pos hr]
  rfl

theorem loadRom_of_large {rom : List Byte} (h : s.stepTaken = false) (hr : ¬romFits rom) :
    loadRom rom s = .fault .romTooLarge := by
  simp only [loadRom, h, if_neg hr]
  rfl

/-! ### The step that is given its random byte -/

/-- An instruction other than `Cxkk` does not use the byte. -/
theorem execGiven_of_ne {i : Instr} (h : ∀ x kk, i ≠ .rnd x kk) (rand : Byte) (s : State) :
    execGiven rand i s = exec i s := by
  cases i <;> first | rfl | exact absurd rfl (h _ _)

theorem execGiven_rnd (rand : Byte) (x : RegIdx) (kk : Byte) (s : State) :
    execGiven rand (.rnd x kk) s = .next ((s.setReg x (rand &&& kk)).complete (s.pc + 2)) := rfl

theorem stepGiven_of_fault (rand : Byte) (h : s.fault.isSome = true) : stepGiven rand s = .next s :=
  stepBy_of_fault _ h

theorem stepGiven_of_instr (rand : Byte) {i : Instr} (h : s.fault = none) (hf : s.fetch = .instr i) :
    stepGiven rand s = execGiven rand i s.markStep := stepBy_of_instr _ h hf

theorem stepGiven_cases (rand : Byte) (s : State) :
    (s.fault.isSome = true ∧ stepGiven rand s = .next s) ∨
    (∃ i, s.fault = none ∧ s.fetch = .instr i ∧ stepGiven rand s = execGiven rand i s.markStep) ∨
    (∃ k w a, s.fault = none ∧ s.fetch = .fault k w a ∧
      stepGiven rand s = .next (s.markStep.enterFault k w a)) := stepBy_cases _ s

/-! ### Transactions -/

/-- A sequence that answers begins with a transaction that answers. -/
theorem transactAll_cons {x : Transaction} {xs : List Transaction} (h : transactAll (x :: xs) s = .next t) :
    ∃ r u, transact x s = .next (r, u) ∧ transactAll xs u = .next t := by
  simp only [transactAll] at h
  split at h
  · next r u e => exact ⟨r, u, e, h⟩
  · cases h
  · cases h

/-- What holds before and is kept by every transaction holds after any sequence of them. -/
theorem transactAll_induct {P : State → Prop} {xs : List Transaction}
    (keep : ∀ x ∈ xs, ∀ s r u, P s → transact x s = .next (r, u) → P u) (hs : P s)
    (h : transactAll xs s = .next t) : P t := by
  induction xs generalizing s with
  | nil => cases h; exact hs
  | cons x xs ih =>
    obtain ⟨r, u, e, h'⟩ := transactAll_cons h
    exact ih (fun y hy => keep y (by simp [hy])) (keep x (by simp) s r u hs e) h'

/-- A sequence whose first transaction runs nothing of which `p` holds, and whose rest never does. -/
theorem neverRuns_of_step {p : Instr → Prop} {x : Transaction} {xs : List Transaction} {r : Response}
    (first : ∀ rand, x = .step rand → ∀ i, s.fetch = .instr i → ¬p i) (e : transact x s = .next (r, t))
    (rest : NeverRuns p xs t) : NeverRuns p (x :: xs) s := by
  refine ⟨fun rand i hx _ hi => first rand hx i hi, fun r' t' e' => ?_⟩
  rw [e] at e'
  cases e'
  exact rest

end Sys2Proof.Machine
end

