-- ==== Sys2Proof/Laws/PerInstr.lean ====
section
/-! SUPPORT. Per instruction: its word is one of its row's in spec/opcode_table.json, `word AND mask = match`. -/

namespace Sys2Proof.Laws

/-- The word of `ADDR` format keeps its class under the mask `0xF000`. -/
theorem encAddr_mask (c : BitVec 4) (nnn : Addr) : encAddr c nnn &&& 0xF000#16 = encAddr c 0 := by
  apply BitVec.eq_of_getLsbD_eq
  intro i hi
  simp only [encAddr, BitVec.getLsbD_and, BitVec.getLsbD_append]
  by_cases h : i < 12
  · have : (0xF000#16).getLsbD i = false := by interval_cases i <;> rfl
    simp [h, this]
  · have : (0xF000#16).getLsbD i = true := by interval_cases i <;> first | omega | rfl
    simp [h, this]

/-- The word of `XKK` format keeps its class under the mask `0xF000`. -/
theorem encXkk_mask (c : BitVec 4) (x : RegIdx) (kk : Byte) : encXkk c x kk &&& 0xF000#16 = encXkk c 0 0 := by
  apply BitVec.eq_of_getLsbD_eq
  intro i hi
  simp only [encXkk, BitVec.getLsbD_and, BitVec.getLsbD_append]
  by_cases h : i < 12
  · have : (0xF000#16).getLsbD i = false := by interval_cases i <;> rfl
    simp only [this, Bool.and_false]
    interval_cases i <;> rfl
  · have : (0xF000#16).getLsbD i = true := by interval_cases i <;> first | omega | rfl
    simp [show ¬i < 8 by omega, show ¬i - 8 < 4 by omega, this]

/-- The word of `XF` format keeps its class and low byte under the mask `0xF0FF`. -/
theorem encXkk_maskLow (c : BitVec 4) (x : RegIdx) (kk : Byte) : encXkk c x kk &&& 0xF0FF#16 = encXkk c 0 kk := by
  apply BitVec.eq_of_getLsbD_eq
  intro i hi
  simp only [encXkk, BitVec.getLsbD_and, BitVec.getLsbD_append]
  by_cases h : i < 8
  · have : (0xF0FF#16).getLsbD i = true := by interval_cases i <;> rfl
    simp [h, this]
  · by_cases h' : i < 12
    · have : (0xF0FF#16).getLsbD i = false := by interval_cases i <;> first | omega | rfl
      simp only [this, Bool.and_false]
      interval_cases i <;> first | omega | rfl
    · have : (0xF0FF#16).getLsbD i = true := by interval_cases i <;> first | omega | rfl
      simp [h, show ¬i - 8 < 4 by omega, this]

/-- The word of `XYN` format keeps its class under the mask `0xF000`. -/
theorem encXyn_mask (c : BitVec 4) (x y : RegIdx) (n : BitVec 4) : encXyn c x y n &&& 0xF000#16 = encXyn c 0 0 0 := by
  apply BitVec.eq_of_getLsbD_eq
  intro i hi
  simp only [encXyn, BitVec.getLsbD_and, BitVec.getLsbD_append]
  by_cases h : i < 12
  · have : (0xF000#16).getLsbD i = false := by interval_cases i <;> rfl
    simp only [this, Bool.and_false]
    interval_cases i <;> rfl
  · have : (0xF000#16).getLsbD i = true := by interval_cases i <;> first | omega | rfl
    simp [show ¬i < 4 by omega, show ¬i - 4 < 4 by omega, show ¬i - 4 - 4 < 4 by omega, this]

/-- The word of `XY` format keeps its class and low nibble under the mask `0xF00F`. -/
theorem encXyn_maskLow (c : BitVec 4) (x y : RegIdx) (n : BitVec 4) :
    encXyn c x y n &&& 0xF00F#16 = encXyn c 0 0 n := by
  apply BitVec.eq_of_getLsbD_eq
  intro i hi
  simp only [encXyn, BitVec.getLsbD_and, BitVec.getLsbD_append]
  by_cases h : i < 4
  · have : (0xF00F#16).getLsbD i = true := by interval_cases i <;> rfl
    simp [h, this]
  · by_cases h' : i < 12
    · have : (0xF00F#16).getLsbD i = false := by interval_cases i <;> first | omega | rfl
      simp only [this, Bool.and_false]
      interval_cases i <;> first | omega | rfl
    · have : (0xF00F#16).getLsbD i = true := by interval_cases i <;> first | omega | rfl
      simp [h, show ¬i - 4 < 4 by omega, show ¬i - 4 - 4 < 4 by omega, this]

namespace TablePattern

/-- The encoder puts the instruction's word into the instruction's row of the opcode table. -/
def Statement (i : Instr) : Prop := encode i &&& i.row.mask = i.row.pattern

theorem cls : Statement (.cls) := rfl
theorem ret : Statement (.ret) := rfl
theorem jp (nnn : Addr) : Statement (.jp nnn) := encAddr_mask ..
theorem call (nnn : Addr) : Statement (.call nnn) := encAddr_mask ..
theorem seImm (x : RegIdx) (kk : Byte) : Statement (.seImm x kk) := encXkk_mask ..
theorem sneImm (x : RegIdx) (kk : Byte) : Statement (.sneImm x kk) := encXkk_mask ..
theorem seReg (x y : RegIdx) : Statement (.seReg x y) := encXyn_maskLow ..
theorem ldImm (x : RegIdx) (kk : Byte) : Statement (.ldImm x kk) := encXkk_mask ..
theorem addImm (x : RegIdx) (kk : Byte) : Statement (.addImm x kk) := encXkk_mask ..
theorem ldReg (x y : RegIdx) : Statement (.ldReg x y) := encXyn_maskLow ..
theorem orReg (x y : RegIdx) : Statement (.orReg x y) := encXyn_maskLow ..
theorem andReg (x y : RegIdx) : Statement (.andReg x y) := encXyn_maskLow ..
theorem xorReg (x y : RegIdx) : Statement (.xorReg x y) := encXyn_maskLow ..
theorem addReg (x y : RegIdx) : Statement (.addReg x y) := encXyn_maskLow ..
theorem subReg (x y : RegIdx) : Statement (.subReg x y) := encXyn_maskLow ..
theorem shr (x y : RegIdx) : Statement (.shr x y) := encXyn_maskLow ..
theorem subnReg (x y : RegIdx) : Statement (.subnReg x y) := encXyn_maskLow ..
theorem shl (x y : RegIdx) : Statement (.shl x y) := encXyn_maskLow ..
theorem sneReg (x y : RegIdx) : Statement (.sneReg x y) := encXyn_maskLow ..
theorem ldIndex (nnn : Addr) : Statement (.ldIndex nnn) := encAddr_mask ..
theorem jpV0 (nnn : Addr) : Statement (.jpV0 nnn) := encAddr_mask ..
theorem rnd (x : RegIdx) (kk : Byte) : Statement (.rnd x kk) := encXkk_mask ..
theorem drw (x y : RegIdx) (n : Fin 16) : Statement (.drw x y n) := encXyn_mask ..
theorem skp (x : RegIdx) : Statement (.skp x) := encXkk_maskLow ..
theorem sknp (x : RegIdx) : Statement (.sknp x) := encXkk_maskLow ..
theorem ldFromDt (x : RegIdx) : Statement (.ldFromDt x) := encXkk_maskLow ..
theorem waitKey (x : RegIdx) : Statement (.waitKey x) := encXkk_maskLow ..
theorem setDt (x : RegIdx) : Statement (.setDt x) := encXkk_maskLow ..
theorem setSt (x : RegIdx) : Statement (.setSt x) := encXkk_maskLow ..
theorem addIndex (x : RegIdx) : Statement (.addIndex x) := encXkk_maskLow ..
theorem ldGlyph (x : RegIdx) : Statement (.ldGlyph x) := encXkk_maskLow ..
theorem bcd (x : RegIdx) : Statement (.bcd x) := encXkk_maskLow ..
theorem storeRegs (x : RegIdx) : Statement (.storeRegs x) := encXkk_maskLow ..
theorem loadRegs (x : RegIdx) : Statement (.loadRegs x) := encXkk_maskLow ..

end TablePattern

end Sys2Proof.Laws
end

