-- ==== Sys2Proof/Tests/Slice0.lean ====
section
/-! SUPPORT. Tests: the well-formedness smoke, decoding of words written out from the spec's patterns, vectors of
spec/95_test_vectors.md (named in each docstring), and a witness for the hypotheses of each statement. -/

namespace Sys2Proof.Tests

open Sys2Proof Sys2Proof.Machine

/-! ### Helpers -/

/-- One step of `s` on the word `w`, of whose next state `p` holds. -/
def runs (s : State) (w : Nat) (p : State → Bool) : Bool :=
  match step (s.withFetchWord 16 w) with
  | .next t => p t
  | _ => false

/-- The reset state with some registers written. -/
def withRegs (l : List (RegIdx × Byte)) : State := l.foldl (fun s r => s.setReg r.1 r.2) State.reset

/-- The reset state with `I` and some registers written. -/
def withIndex (v : Word) (l : List (RegIdx × Byte)) : State := (withRegs l).setIndex v

/-- A state with the byte `v` at `a`. -/
def poke (a : Nat) (v : Byte) (s : State) : State := s.setMem (Memory.write s.mem a v)

/-- The next state of an outcome. -/
def after (o : Result) : State :=
  match o with
  | .next t => t
  | _ => State.reset

/-- A state with the font loaded. -/
def fonted (s : State) : State := after (loadFont s)

/-- A state with another reading of `VF_ALIAS`. -/
def reading (a : VfAlias) (s : State) : State := { s with cfg := { s.cfg with vfAlias := a } }

/-- A state with `FETCH_ALIGN_CHECK`. -/
def aligned (s : State) : State := { s with cfg := { s.cfg with fetchAlignCheck := true } }

/-- A state with key `k` pressed. -/
def pressed (k : Fin 16) (s : State) : State := { s with keys := s.keys.set k true }

/-- The fault a state records, with its code. -/
def faultOf (s : State) : Option (Nat × Option Word × Word × Option Nat) :=
  s.fault.map fun r => (r.code, r.word, r.pc, r.addr)

/-! ### Well-formedness smoke: an ill-formed term for each check, refused -/

theorem test_config_wf_accepts_default : Config.standard.wf := by decide

theorem test_config_wf_refuses_font_over_rom : ¬({ Config.standard with fontBase := 0x1B1 } : Config).wf := by decide

theorem test_romFits_refuses_3585 : ¬romFits (List.replicate 3585 0x00) := by
  show ¬_ ≤ _
  rw [List.length_replicate]
  decide

theorem test_romFits_accepts_3584 : romFits (List.replicate 3584 0x00) := by
  show _ ≤ _
  rw [List.length_replicate]

/-! ### Decoding: every constructor, from a word written out of its pattern (30_encoding.md rules R73 to R80) -/

theorem test_decode_fix : [0x00E0, 0x00EE].map (decodeTableWord 16) = [some .cls, some .ret] := by decide

theorem test_decode_addr : [0x1234, 0x2300, 0xA123, 0xBA00].map (decodeTableWord 16) =
    [some (.jp 0x234), some (.call 0x300), some (.ldIndex 0x123), some (.jpV0 0xA00)] := by decide

theorem test_decode_xkk : [0x3342, 0x4343, 0x6A5C, 0x70FF, 0xC30F].map (decodeTableWord 16) =
    [some (.seImm 3 0x42), some (.sneImm 3 0x43), some (.ldImm 10 0x5C), some (.addImm 0 0xFF), some (.rnd 3 0x0F)] := by
  decide

theorem test_decode_xy : [0x5120, 0x9120, 0x8120, 0x8121, 0x8122, 0x8123].map (decodeTableWord 16) =
    [some (.seReg 1 2), some (.sneReg 1 2), some (.ldReg 1 2), some (.orReg 1 2), some (.andReg 1 2),
     some (.xorReg 1 2)] := by decide

theorem test_decode_xy_flags : [0x8014, 0x81F5, 0x8AB6, 0x8017, 0x801E].map (decodeTableWord 16) =
    [some (.addReg 0 1), some (.subReg 1 15), some (.shr 10 11), some (.subnReg 0 1), some (.shl 0 1)] := by decide

theorem test_decode_xyn : decodeTableWord 16 0xD12F = some (.drw 1 2 15) := by decide

theorem test_decode_class_e : [0xE59E, 0xE0A1].map (decodeTableWord 16) = [some (.skp 5), some (.sknp 0)] := by decide

theorem test_decode_class_f : [0xF107, 0xF30A, 0xF015, 0xF018, 0xF01E].map (decodeTableWord 16) =
    [some (.ldFromDt 1), some (.waitKey 3), some (.setDt 0), some (.setSt 0), some (.addIndex 0)] := by decide

theorem test_decode_class_f_memory : [0xF029, 0xF033, 0xF255, 0xFF65].map (decodeTableWord 16) =
    [some (.ldGlyph 0), some (.bcd 0), some (.storeRegs 2), some (.loadRegs 15)] := by decide

/-- DE3 to DE10: words that are no instruction. -/
theorem test_decode_unknown : ([0x0000, 0x0123, 0x00E1, 0x00EF, 0x00FF, 0x5121, 0x512F, 0x9121] ++
    [0x8128, 0x8129, 0x812A, 0x812B, 0x812C, 0x812D, 0x812F, 0xE09F, 0xE0A0, 0xE000] ++
    [0xF000, 0xF008, 0xF0FF, 0xF056]).all (fun w => (decodeTableWord 16 w).isNone) = true := by decide

theorem test_decode_truncated : decodeBytes [0x12] = .error .truncated := rfl

theorem test_decode_unknown_named : decodeBytes [0x01, 0x23, 0x55] = .error (.unknownInstruction 0x0123) := rfl

theorem test_decode_leaves_the_rest : decodeBytes [0x12, 0x34, 0x55] = .ok (.jp 0x234, [0x55]) := rfl

/-- The 34 rows of spec/opcode_table.json. -/
theorem test_table_has_34_rows : opcodeRows.length = 34 := by decide

/-! ### Display (vectors DI, SA) -/

/-- DI1. -/
theorem test_cls : runs (State.reset.setDisplay (Display.xorWrite Display.clear 63 31 true).1) 0x00E0
    (fun t => decide (t.display = Display.clear) && t.pc == 0x202 && t.status == .stepped) = true := by decide

/-- DI3: glyph 0 at (0, 0), 14 pixels, no collision. -/
theorem test_drw_glyph : runs ((fonted State.reset).setIndex 0x050) 0xD015
    (fun t => ([(0, 0), (3, 0), (0, 1), (3, 3), (0, 4), (3, 4)].all fun p => t.display.pixel p.1 p.2) &&
      !t.display.pixel 1 1 && !t.display.pixel 4 0 && t.reg 15 == 0 && t.index == 0x050) = true := by decide

/-- DI5 and DI9: wraparound at column 63, and a collision. -/
theorem test_drw_wraps_and_collides :
    runs (poke 0x300 0xFF (withIndex 0x300 [(0, 60)])) 0xD011
      (fun t => t.display.pixel 63 0 && t.display.pixel 3 0 && !t.display.pixel 4 0 && t.reg 15 == 0) = true ∧
    runs ((poke 0x300 0x80 (withIndex 0x300 [])).setDisplay (Display.xorWrite Display.clear 0 0 true).1) 0xD011
      (fun t => !t.display.pixel 0 0 && t.reg 15 == 1) = true := by decide

/-- DI12. -/
theorem test_drw_out_of_memory : runs (withIndex 0xFFF []) 0xD012
    (fun t => faultOf t == some (4, some 0xD012, 0x200, some 0x1000) && t.pc == 0x200) = true := by decide

/-- DI10: `n = 0` draws nothing and clears `VF`. -/
theorem test_drw_zero_rows : runs (withIndex 0x300 [(15, 7)]) 0xD010
    (fun t => t.reg 15 == 0 && decide (t.display = Display.clear) && t.pc == 0x202) = true := by decide

/-! ### Control flow (vectors CF) -/

/-- CF6 and CF7. -/
theorem test_ret :
    runs { State.reset with sp := 1, stack := State.reset.stack.set 0 0x250, pc := 0x300 } 0x00EE
      (fun t => t.sp == 0 && t.pc == 0x252) = true ∧
    runs { State.reset with pc := 0x300 } 0x00EE
      (fun t => faultOf t == some (3, some 0x00EE, 0x300, none) && t.sp == 0 && t.pc == 0x300) = true := by decide

/-- CF1. -/
theorem test_jp : runs State.reset 0x1234 (fun t => t.pc == 0x234) = true := by decide

/-- CF4 and CF5. -/
theorem test_call :
    runs { State.reset with sp := 15 } 0x2300
      (fun t => t.stack[15] == 0x200 && t.sp == 16 && t.pc == 0x300) = true ∧
    runs { State.reset with sp := 16 } 0x2300
      (fun t => faultOf t == some (2, some 0x2300, 0x200, none) && t.sp == 16 && t.pc == 0x200) = true := by decide

/-- CF8 to CF11. -/
theorem test_skip_immediate :
    [0x3342, 0x3343, 0x4342, 0x4343].map (fun w => runs (withRegs [(3, 0x42)]) w (fun t => t.pc == 0x204)) =
      [true, false, false, true] := by decide

/-- CF12, CF13, CF15, CF16. -/
theorem test_skip_register :
    runs (withRegs [(1, 7), (2, 7)]) 0x5120 (fun t => t.pc == 0x204) = true ∧
    runs (withRegs [(1, 7), (2, 8)]) 0x5120 (fun t => t.pc == 0x202) = true ∧
    runs (withRegs [(1, 7), (2, 8)]) 0x9120 (fun t => t.pc == 0x204) = true ∧
    runs (withRegs [(1, 7)]) 0x9110 (fun t => t.pc == 0x202) = true := by decide

/-- CF18 and CF19. -/
theorem test_jp_v0 :
    runs (withRegs [(0, 0x20)]) 0xB2F0 (fun t => t.pc == 0x310) = true ∧
    runs (withRegs [(0, 0xFF)]) 0xBFFF (fun t => t.pc == 0x10FE &&
      faultOf (after (step t)) == some (4, none, 0x10FE, some 0x10FE)) = true := by decide

/-- FT5, FT4, FT3, CF23: the fetch at an odd `pc`, and above `0xFFE`. -/
theorem test_fetch_checks :
    runs { State.reset with pc := 0x201 } 0x6007 (fun t => t.reg 0 == 7 && t.pc == 0x203) = true ∧
    runs (aligned { State.reset with pc := 0x201 }) 0x6007
      (fun t => faultOf t == some (7, none, 0x201, some 0x201)) = true ∧
    runs (aligned { State.reset with pc := 0x1001 }) 0x6007
      (fun t => faultOf t == some (4, none, 0x1001, some 0x1001)) = true ∧
    runs { State.reset with pc := 0xFFF } 0x6007
      (fun t => faultOf t == some (4, none, 0xFFF, some 0x1000)) = true := by decide

/-! ### Registers and arithmetic (vectors AL, VA) -/

/-- AL1, AL3, AL4, AL6. -/
theorem test_loads_and_immediate_add :
    runs State.reset 0x6A5C (fun t => t.reg 10 == 0x5C) = true ∧
    runs (withRegs [(0, 5), (15, 0x33)]) 0x7003 (fun t => t.reg 0 == 8 && t.reg 15 == 0x33) = true ∧
    runs (withRegs [(0, 0xFF)]) 0x7001 (fun t => t.reg 0 == 0 && t.reg 15 == 0) = true ∧
    runs (withRegs [(2, 0x33)]) 0x8120 (fun t => t.reg 1 == 0x33 && t.reg 2 == 0x33) = true := by decide

/-- AL7, AL8, AL9. -/
theorem test_logic :
    runs (withRegs [(1, 0xF0), (2, 0x0F), (15, 0x55)]) 0x8121 (fun t => t.reg 1 == 0xFF && t.reg 15 == 0x55) = true ∧
    runs (withRegs [(1, 0xF0), (2, 0x3C)]) 0x8122 (fun t => t.reg 1 == 0x30) = true ∧
    runs (withRegs [(1, 0xF0), (2, 0x3C)]) 0x8123 (fun t => t.reg 1 == 0xCC) = true := by decide

/-- AL11, AL12, VA1. -/
theorem test_add_register :
    runs (withRegs [(0, 0xFF), (1, 1)]) 0x8014 (fun t => t.reg 0 == 0 && t.reg 15 == 1) = true ∧
    runs (withRegs [(0, 0x80), (1, 0x7F)]) 0x8014 (fun t => t.reg 0 == 0xFF && t.reg 15 == 0) = true ∧
    runs (withRegs [(15, 0xFF), (1, 1)]) 0x8F14 (fun t => t.reg 15 == 1) = true := by decide

/-- AL15, AL17, and VA3 under the three readings. -/
theorem test_sub :
    runs (withRegs [(0, 3), (1, 5)]) 0x8015 (fun t => t.reg 0 == 0xFE && t.reg 15 == 0) = true ∧
    runs (withRegs [(0, 7), (1, 7)]) 0x8015 (fun t => t.reg 0 == 0 && t.reg 15 == 1) = true ∧
    [VfAlias.flagLast, .tableOrder, .sequential].map (fun a =>
      [0x01, 0x02, 0xFE].map fun b => runs (reading a (withRegs [(15, 5), (1, 3)])) 0x8F15 (fun t => t.reg 15 == b)) =
      [[true, false, false], [false, true, false], [false, false, true]] := by decide

/-- VA4 and VA7: `y = F` under `sequential`. -/
theorem test_sub_sequential_y_is_vf :
    runs (reading .sequential (withRegs [(1, 5), (15, 3)])) 0x81F5 (fun t => t.reg 1 == 4 && t.reg 15 == 1) = true ∧
    runs (reading .sequential (withRegs [(1, 3), (15, 5)])) 0x81F7 (fun t => t.reg 1 == 0xFE && t.reg 15 == 1) =
      true := by decide

/-- AL21, AL22, and VA6 under `table_order`. -/
theorem test_subn :
    runs (withRegs [(0, 3), (1, 5)]) 0x8017 (fun t => t.reg 0 == 2 && t.reg 15 == 1) = true ∧
    runs (withRegs [(0, 5), (1, 3)]) 0x8017 (fun t => t.reg 0 == 0xFE && t.reg 15 == 0) = true ∧
    runs (reading .tableOrder (withRegs [(15, 3), (1, 5)])) 0x8F17 (fun t => t.reg 15 == 2) = true := by decide

/-- AL18, AL19, and VA5 under `sequential`. -/
theorem test_shr :
    runs (withRegs [(0, 5)]) 0x8006 (fun t => t.reg 0 == 2 && t.reg 15 == 1) = true ∧
    runs (withRegs [(0, 4), (1, 0xFF)]) 0x8016 (fun t => t.reg 0 == 2 && t.reg 15 == 0) = true ∧
    runs (reading .sequential (withRegs [(15, 3)])) 0x8F16 (fun t => t.reg 15 == 0) = true := by decide

/-- AL23, AL25, and VA9 under `table_order`. -/
theorem test_shl :
    runs (withRegs [(0, 0x81)]) 0x800E (fun t => t.reg 0 == 2 && t.reg 15 == 1) = true ∧
    runs (withRegs [(0, 0x7F), (1, 0x80)]) 0x801E (fun t => t.reg 0 == 0xFE && t.reg 15 == 0) = true ∧
    runs (reading .tableOrder (withRegs [(15, 2)])) 0x8F1E (fun t => t.reg 15 == 4) = true := by decide

/-- AL26, AL28: the byte given to the step. -/
theorem test_rnd_given :
    (after (stepGiven 0xAB (State.reset.withFetchWord 16 0xC30F))).reg 3 = 0x0B ∧
    (after (stepGiven 0x5D (State.reset.withFetchWord 16 0xC3FF))).reg 3 = 0x5D := by decide

/-- AL27: `kk = 0` gives 0 for every draw. -/
theorem test_rnd_masked_to_zero (n : Nat) (s : State) :
    (after (execRnd 3 0x00 { s with draws := n })).reg 3 = 0x00 := by
  simp [execRnd, execRndGiven, writeReg, State.advance, after]

/-! ### Index and memory (vectors IM) -/

/-- IM1, IM2, IM4. -/
theorem test_index :
    runs State.reset 0xA123 (fun t => t.index == 0x123) = true ∧
    runs (withIndex 0xFF0 [(0, 0x0F)]) 0xF01E (fun t => t.index == 0xFFF) = true ∧
    runs (withIndex 0xFFF [(0, 0xFF)]) 0xF01E (fun t => faultOf t == some (4, some 0xF01E, 0x200, some 0x10FE) &&
      t.index == 0xFFF) = true := by decide

/-- IM6 and IM10. -/
theorem test_glyph :
    runs (withRegs [(0, 0x0A)]) 0xF029 (fun t => t.index == 0x082) = true ∧
    runs (withRegs [(0, 0xFF)]) 0xF029 (fun t => t.index == 0x54B) = true := by decide

/-- IM11, IM16, IM17, IM18, IM22. -/
theorem test_bcd :
    runs (withIndex 0x300 [(0, 0x9C)]) 0xF033
      (fun t => [0x300, 0x301, 0x302].map (Memory.read t.mem) == [1, 5, 6] && t.index == 0x300) = true ∧
    runs (withIndex 0xFFD [(0, 0x7B)]) 0xF033
      (fun t => [0xFFD, 0xFFE, 0xFFF].map (Memory.read t.mem) == [1, 2, 3]) = true ∧
    runs (withIndex 0xFFE []) 0xF033 (fun t => faultOf t == some (4, some 0xF033, 0x200, some 0x1000)) = true ∧
    runs (withIndex 0x04E []) 0xF033 (fun t => faultOf t == some (6, some 0xF033, 0x200, some 0x050)) = true := by
  decide

/-- IM22: without the protection a font byte is overwritten. -/
theorem test_bcd_unprotected_font :
    runs { withIndex 0x04E [(0, 0x7B)] with cfg := { Config.standard with fontWriteProtect := false } } 0xF033
      (fun t => [0x04E, 0x04F, 0x050].map (Memory.read t.mem) == [1, 2, 3]) = true := by decide

/-- IM23, IM27. -/
theorem test_store_registers :
    runs (withIndex 0x300 [(0, 1), (1, 2), (2, 3)]) 0xF255
      (fun t => [0x300, 0x301, 0x302, 0x303].map (Memory.read t.mem) == [1, 2, 3, 0] && t.index == 0x300) = true ∧
    runs (withIndex 0x041 []) 0xFF55 (fun t => faultOf t == some (6, some 0xFF55, 0x200, some 0x050)) = true ∧
    runs (withIndex 0x040 []) 0xFF55 (fun t => t.status == .stepped) = true := by decide

/-- IM29, IM31. -/
theorem test_load_registers :
    runs ((fonted State.reset).setIndex 0x050) 0xF465
      (fun t => [0, 1, 2, 3, 4].map t.reg == [0xF0, 0x90, 0x90, 0x90, 0xF0] && t.index == 0x050) = true ∧
    runs (withIndex 0xFFF [(0, 9)]) 0xF165
      (fun t => faultOf t == some (4, some 0xF165, 0x200, some 0x1000) && t.reg 0 == 9) = true := by decide

/-! ### Keypad and timers (vectors KT) -/

/-- KT1 to KT4. -/
theorem test_key_skips :
    runs (pressed 5 (withRegs [(0, 5)])) 0xE09E (fun t => t.pc == 0x204) = true ∧
    runs (withRegs [(0, 5)]) 0xE09E (fun t => t.pc == 0x202) = true ∧
    runs (withRegs [(0, 5)]) 0xE0A1 (fun t => t.pc == 0x204) = true ∧
    runs (pressed 5 (withRegs [(0, 5)])) 0xE0A1 (fun t => t.pc == 0x202) = true := by decide

/-- KT6, KT7. -/
theorem test_key_out_of_range :
    runs (withRegs [(0, 0x10)]) 0xE09E (fun t => faultOf t == some (5, some 0xE09E, 0x200, none)) = true ∧
    runs (withRegs [(0, 0xFF)]) 0xE0A1 (fun t => faultOf t == some (5, some 0xE0A1, 0x200, none)) = true := by decide

/-- KT8, KT9, KT10. -/
theorem test_timers :
    runs (State.reset.setDelay 0x3C) 0xF107 (fun t => t.reg 1 == 0x3C) = true ∧
    runs (withRegs [(0, 0x3C)]) 0xF015 (fun t => t.dt == 0x3C && t.st == 0) = true ∧
    runs (withRegs [(0, 5)]) 0xF018 (fun t => t.st == 5 && t.dt == 0) = true := by decide

/-- KT11, KT12. -/
theorem test_wait_key :
    runs State.reset 0xF30A (fun t => t.status == .blocked && t.pc == 0x200 && t.reg 3 == 0) = true ∧
    runs (pressed 3 (pressed 7 State.reset)) 0xF30A
      (fun t => t.status == .stepped && t.reg 3 == 3 && t.pc == 0x202) = true := by decide

/-! ### Faults and transactions (vectors FT) -/

/-- FT11 and FT1: an unloaded machine faults at once, and stays so. -/
theorem test_unknown_word_is_sticky :
    faultOf (after (step State.reset)) = some (1, some 0x0000, 0x200, none) ∧
    decide (after (step (after (step State.reset))) = after (step State.reset)) = true := by decide

/-- FT7. -/
theorem test_tick : (tick { State.reset with dt := 1, st := 0xFF }).dt = 0 ∧
    (tick { State.reset with dt := 1, st := 0xFF }).st = 0xFE ∧ (tick State.reset).dt = 0 := by decide

/-- FT13: the ends of the loaded font. -/
theorem test_font_loaded :
    [0x050, 0x051, 0x054, 0x09B, 0x09F].map (Memory.read (fonted State.reset).mem) = [0xF0, 0x90, 0xF0, 0xF0, 0x80] := by
  decide

/-- FT9: a ROM of 3585 bytes is `RomTooLarge`. -/
theorem test_rom_too_large : loadRom (List.replicate 3585 0x00) State.reset = .fault .romTooLarge :=
  loadRom_of_large rfl test_romFits_refuses_3585

/-- A load after a step is refused (70_reset_and_hazards.md rule R241). -/
theorem test_late_load_refused : loadRom [0x12, 0x00] (after (step State.reset)) = .refused .loadAfterFirstStep :=
  loadRom_of_started _ (by decide)

/-- `load_font` of a configuration whose font would overlap the ROM (20_memory.md rule R57). -/
theorem test_invalid_configuration_refused :
    loadFont (State.initial { Config.standard with fontBase := 0xFF0 }) = .refused .invalidConfiguration := rfl

/-- The word placed for the next step is the one it fetches. -/
theorem test_withFetchWord_fetches : (State.reset.withFetchWord 16 0xD125).fetch = .instr (.drw 1 2 5) := by decide

/-! ### Witnesses: what meets the hypotheses of each statement that has some, at the boundaries of its clauses -/

theorem exec_after (i : Instr) (s : State) : exec i s = .next (after (exec i s)) := by
  rcases exec_ends i s with ⟨_, _, h, _⟩ | ⟨h, _⟩ | ⟨_, _, h, _⟩ <;> rw [h] <;> rfl

theorem step_after (s : State) : step s = .next (after (step s)) := by
  rcases step_cases s with ⟨_, h⟩ | ⟨i, _, _, h⟩ | ⟨k, w, a, _, _, h⟩
  · rw [h]; rfl
  · rw [h]; exact exec_after _ _
  · rw [h]; rfl

/-- A running state with an empty stack keeps the invariant where its memory, index and `pc` do. -/
theorem inv_of_running {s : State} (hm : Memory.wf s.mem) (hc : s.cfg.wf) (hi : s.index.toNat ≤ 0xFFF)
    (hp : s.pc.toNat ≤ 0x10FE) (hsp : s.sp.val = 0) (hst : s.status = .stepped) (hf : s.fault = none) : s.Inv where
  memCanonical := hm
  configWf := hc
  indexInMemory := hi
  pcBound := hp
  stackFetched k hk := absurd hk (by omega)
  faultStatus := by simp [hst, hf]
  faultPc r h := by simp [hf] at h
  faultRecorded r h := by simp [hf] at h
  faultWord r w h := by simp [hf] at h
  blockedAtWait h := by simp [hst] at h
  beforeFirstStep _ := ⟨hst, hf⟩

/-- A machine with the word `w` at `0x200` and some registers written. -/
def ready (w : Nat) (l : List (RegIdx × Byte)) : State := (withRegs l).withFetchWord 16 w

/-- A machine that has faulted on the word `0x0000`. -/
def stopped : State :=
  { State.reset with
    status := .faulted, stepTaken := true, fault := some ⟨.unknownInstruction, some 0x0000, 0x200, none⟩ }

theorem stopped_inv : stopped.Inv where
  memCanonical := by decide
  configWf := by decide
  indexInMemory := by decide
  pcBound := by decide
  stackFetched := by decide
  faultStatus := by decide
  faultPc r h := by cases h; rfl
  faultRecorded r h := by cases h; exact ⟨⟨0x0000, rfl, by decide⟩, rfl⟩
  faultWord r w h hw := by cases h; cases hw; decide
  blockedAtWait h := by cases h
  beforeFirstStep h := by cases h

theorem ready_inv : (ready 0x6A5C [(0, 0xF3), (1, 0x0A)]).Inv :=
  inv_of_running (by decide) (by decide) (by decide) (by decide) rfl rfl rfl

/-- A machine with the font loaded and an `Fx55` at `0x200`. -/
def withFont : State := (fonted State.reset).withFetchWord 16 0xF155

theorem withFont_inv : withFont.Inv :=
  inv_of_running (by decide) (by decide) (by decide) (by decide) (by decide) (by decide) (by decide)

theorem witness_DecodedWordsAreTheirInstructionsEncodings : decodeWord 0x8AB6 = some (.shr 10 11) := by decide

theorem witness_UnrecognisedWordsRaiseUnknownInstruction :
    State.reset.fault = none ∧ State.reset.pc.toNat ≤ 0xFFE ∧ State.reset.cfg.fetchAlignCheck = false ∧
    Memory.read State.reset.mem State.reset.pc.toNat ++ Memory.read State.reset.mem (State.reset.pc.toNat + 1) =
      (0x0000 : Word) ∧
    Unrecognised 0x0000 ∧ Unrecognised 0x0FFF ∧ Unrecognised 0x5001 ∧ Unrecognised 0x9FFF ∧ Unrecognised 0x8008 ∧
    Unrecognised 0x8FFF ∧ Unrecognised 0xE09F ∧ Unrecognised 0xF066 ∧ ¬Unrecognised 0x00E0 ∧ ¬Unrecognised 0xFF65 := by
  unfold Unrecognised
  refine ⟨?_, ?_, ?_, ?_, ?_, ?_, ?_, ?_, ?_, ?_, ?_, ?_, ?_, ?_⟩ <;> decide

theorem witness_StepRunsTheDecodedInstruction :
    let s := aligned (ready 0x6A5C [])
    s.fault = none ∧ s.pc.toNat ≤ 0xFFE ∧ (s.cfg.fetchAlignCheck = true → s.pc.toNat % 2 = 0) ∧
      decodeWord (Memory.read s.mem s.pc.toNat ++ Memory.read s.mem (s.pc.toNat + 1)) = some (.ldImm 10 0x5C) := by decide

/-- Each clause: a recorded fault; `pc` at `0xFFF`, where the alignment fails too; an odd `pc` below it at an unknown
word; an unknown word; the two stores, which would touch the font too; an instruction with a fault of its own. -/
theorem witness_FaultsAreReportedInPriorityOrder :
    stopped.fault ≠ none ∧
    (let s := aligned { State.reset with pc := 0xFFF }
     s.fault = none ∧ 0xFFE < s.pc.toNat ∧ s.cfg.fetchAlignCheck = true ∧ s.pc.toNat % 2 = 1) ∧
    (let s := aligned { State.reset with pc := 0xFFD }
     s.fault = none ∧ s.pc.toNat ≤ 0xFFE ∧ s.cfg.fetchAlignCheck = true ∧ s.pc.toNat % 2 = 1 ∧
       decodeWord s.wordAtPc = none) ∧
    (let s := { State.reset with pc := 0xFFE }
     s.fault = none ∧ s.pc.toNat ≤ 0xFFE ∧ (s.cfg.fetchAlignCheck = true → s.pc.toNat % 2 = 0) ∧
       decodeWord s.wordAtPc = none) ∧
    0xFFF < (withIndex 0xFFE []).index.toNat + 2 ∧
    0xFFF < (withIndex 0xFFE []).index.toNat + (2 : RegIdx).val ∧
    (∀ x, Instr.ret ≠ .bcd x ∧ Instr.ret ≠ .storeRegs x) ∧
    (after (exec .ret State.reset)).fault ≠ none := by decide

/-- A step that faults at the fetch, one that faults in the instruction, one that blocks. -/
theorem witness_FaultingAndBlockedStepsWriteNothingElse :
    (∀ s, MayStep s (after (step s))) ∧
    [State.reset, ready 0x00EE [], ready 0xF30A []].all (fun s => s.fault.isNone) = true ∧
    [State.reset, ready 0x00EE [], ready 0xF30A []].map (fun s => (after (step s)).status) =
      [.faulted, .faulted, .blocked] := ⟨fun s => .inl (step_after s), by decide⟩

theorem witness_ARecordedFaultIsStickyUntilReset :
    stopped.Inv ∧ stopped.fault ≠ none ∧ Transaction.reset ∉ [Transaction.step 0x5D, .tick, .setKeys (Vector.replicate 16 true)] ∧
    transactAll [.step 0x5D, .tick, .setKeys (Vector.replicate 16 true)] stopped =
      .next { stopped with keys := Vector.replicate 16 true } :=
  ⟨stopped_inv, by decide, by decide, rfl⟩

theorem witness_EveryStepReturnsExactlyOneStatus : (ready 0x6A5C [(0, 0xF3), (1, 0x0A)]).Inv ∧ stopped.Inv :=
  ⟨ready_inv, stopped_inv⟩

theorem witness_NeverFaultingInstructionsRecordNoFault :
    neverFaults (.jpV0 0xFFF) = true ∧ neverFaults .ret = false ∧ State.reset.cfg.fontBase = 0x050 := by decide

/-- An instruction that completes, one that does not. -/
theorem witness_TheProgramCounterMovesInThreeWays :
    (∀ i s, exec i s = .next (after (exec i s))) ∧
    (after (exec (.jpV0 0xFFF) State.reset)).status = .stepped ∧ (after (exec .ret State.reset)).status = .faulted :=
  ⟨exec_after, by decide, by decide⟩

/-- Each clause: an instruction that changes the piece. -/
theorem witness_EachPieceIsWrittenOnlyByItsInstructions :
    (∀ i s, exec i s = .next (after (exec i s))) ∧
    (after (exec (.addIndex 0) (withRegs [(0, 1)]))).index ≠ 0 ∧
    (after (exec (.call 0x300) State.reset)).stack ≠ State.reset.stack ∧
    (after (exec (.call 0x300) State.reset)).sp ≠ 0 ∧
    (after (exec (.setDt 0) (withRegs [(0, 1)]))).dt ≠ 0 ∧
    (after (exec (.setSt 0) (withRegs [(0, 1)]))).st ≠ 0 ∧
    (after (exec (.drw 0 0 1) (poke 0 0x80 State.reset))).display ≠ State.reset.display ∧
    (after (exec (.storeRegs 0) (withRegs [(0, 1)]))).mem ≠ [] ∧
    (after (exec (.rnd 0 0x00) State.reset)).draws ≠ State.reset.draws ∧
    (after (exec .ret State.reset)).fault ≠ none :=
  ⟨exec_after, by decide, by decide, by decide, by decide, by decide, by decide, by decide, by decide, by decide⟩

theorem witness_VfIsWrittenOnlyAsFlagOrDestination :
    (after (exec (.ldImm 15 0x07) State.reset)).reg 15 ≠ State.reset.reg 15 ∧
    (after (exec (.addReg 0 1) (withRegs [(0, 0xFF), (1, 1)]))).reg 15 ≠ (withRegs [(0, 0xFF), (1, 1)]).reg 15 := by
  decide

/-- A machine that has faulted, then reset. -/
theorem witness_ResetLeavesTheResetValues :
    transact .reset { stopped with dt := 7 } = .next (.nothing, State.initial stopped.cfg) := rfl

theorem witness_EveryStepKeepsTheInvariant :
    (ready 0x6A5C [(0, 0xF3), (1, 0x0A)]).Inv ∧
    step (ready 0x6A5C [(0, 0xF3), (1, 0x0A)]) = .next (after (step (ready 0x6A5C [(0, 0xF3), (1, 0x0A)]))) ∧
    stopped.Inv ∧ step stopped = .next stopped :=
  ⟨ready_inv, step_after _, stopped_inv, rfl⟩

theorem witness_EveryInterleavingKeepsTheInvariant :
    (ready 0x6A5C [(0, 0xF3), (1, 0x0A)]).Inv ∧
    ∃ t, transactAll [.tick, .step 0x5D, .step 0x5D, .reset] (ready 0x6A5C [(0, 0xF3), (1, 0x0A)]) = .next t :=
  ⟨ready_inv, _, rfl⟩

/-- The sequence runs an `Fx55` on the font, which faults. -/
theorem witness_TheLoadedFontSurvivesEveryInterleaving :
    let s := withFont.setIndex 0x04F
    s.Inv ∧ s.cfg.fontWriteProtect = true ∧ s.fontLoaded ∧ Transaction.reset ∉ [Transaction.step 0x5D, .tick] ∧
      ∃ t, transactAll [.step 0x5D, .tick] s = .next t :=
  ⟨inv_of_running (by decide) (by decide) (by decide) (by decide) (by decide) (by decide) (by decide), by decide,
    by unfold State.fontLoaded; decide, by decide, _, rfl⟩

theorem witness_BootLeavesTheCleanLaunchState :
    stopped.cfg.wf ∧ (List.replicate 3584 (0x00 : Byte)).length ≤ 3584 ∧ ([] : List Byte).length ≤ 3584 :=
  ⟨by decide, test_romFits_accepts_3584, by decide⟩

theorem witness_LoadsWriteExactlyTheirBytes :
    let s := ready 0x6A5C [(0, 0xF3), (1, 0x0A)]
    s.Inv ∧ s.stepTaken = false ∧ (List.replicate 3584 (0x00 : Byte)).length ≤ 3584 ∧
      3584 < (List.replicate 3585 (0x00 : Byte)).length :=
  ⟨ready_inv, by decide, test_romFits_accepts_3584, Nat.lt_of_not_le test_romFits_refuses_3585⟩

theorem witness_FontAndRomLoadInEitherOrder :
    let s := ready 0x6A5C [(0, 0xF3), (1, 0x0A)]
    s.Inv ∧ s.stepTaken = false ∧ (List.replicate 3584 (0x00 : Byte)).length ≤ 3584 :=
  ⟨ready_inv, by decide, test_romFits_accepts_3584⟩

theorem witness_OversizedRomIsRejectedAndChangesNothing :
    State.reset.cfg.wf ∧ 3584 < (List.replicate 3585 (0x00 : Byte)).length ∧ State.reset.stepTaken = false :=
  ⟨by decide, Nat.lt_of_not_le test_romFits_refuses_3585, rfl⟩

theorem witness_LoadsAreRefusedOnceAStepHasRun :
    (ready 0x6A5C [(0, 0xF3), (1, 0x0A)]).Inv ∧
    MayStep (ready 0x6A5C [(0, 0xF3), (1, 0x0A)]) (after (step (ready 0x6A5C [(0, 0xF3), (1, 0x0A)]))) :=
  ⟨ready_inv, .inl (step_after _)⟩

/-- A machine with an `Fx15` at `0x200` and a `Cxkk` at `0x202`. -/
def timed : State := poke 0x202 0xC3 (ready 0xF015 [(0, 0xFF)])

/-- Between the two instructions: a tick, a key update, the `Cxkk`, a tick. -/
def between : List Transaction := [.tick, .setKeys (Vector.replicate 16 true), .step 0x5D, .tick]

theorem witness_DelayReadsBackLessTheTicksBetween :
    let t := after (exec (.setDt 0) timed)
    exec (.setDt 0) timed = .next t ∧ Transaction.reset ∉ between ∧ between.count .tick = 2 ∧
      NeverRuns (fun i => ∃ z, i = .setDt z) between t ∧ ∃ u, transactAll between t = .next u := by
  refine ⟨exec_after _ _, by decide, by decide, ?_, _, rfl⟩
  refine neverRuns_of_step (fun _ h => by cases h) (r := .nothing) rfl ?_
  refine neverRuns_of_step (fun _ h => by cases h) (r := .nothing) rfl ?_
  refine neverRuns_of_step (fun _ _ i hi h => ?_) (r := .stepStatus .stepped none) rfl ?_
  · obtain ⟨z, rfl⟩ := h
    exact absurd (hi.symm.trans (by decide : _ = Fetched.instr (.rnd 3 0x00))) (by simp)
  · exact neverRuns_of_step (fun _ h => by cases h) (r := .nothing) rfl trivial

/-- Every key is pressed, and released again. -/
theorem witness_ABlockedWaitIsFetchedAgainThroughTicksAndKeyUpdates :
    let s := ready 0xF30A []
    let ts : List Transaction := [.tick, .setKeys (Vector.replicate 16 true), .setKeys (Vector.replicate 16 false)]
    s.fault = none ∧ MayStep s (after (step s)) ∧ (after (step s)).status = .blocked ∧
      (∀ x ∈ ts, x = .tick ∨ x = .readDisplay ∨ x = .readSoundTimer ∨ ∃ k, x = .setKeys k) ∧
      ∃ u, transactAll ts (after (step s)) = .next u ∧ ∀ k : Fin 16, u.keys[k] = false :=
  ⟨rfl, .inl (step_after _), by decide, by simp, _, rfl, by decide⟩

theorem witness_ASelfJumpChangesNothingButTheTimers :
    (ready 0x1200 []).fault = none ∧ (ready 0x1200 []).Halted :=
  ⟨rfl, rfl, 0x200, by decide, by decide⟩

theorem witness_XorWriteFlipsOnePixelAndReportsItsErasure : (63 : Nat) < 64 ∧ (31 : Nat) < 32 := by decide

/-- No rows at `0xFFF`; one row there; two rows there; and a sprite with a set bit on the pixel (0, 0). -/
theorem witness_DrwXorsTheSpriteWithWraparound :
    let s := poke 0xFFF 0x80 (withIndex 0xFFF [])
    (0 : Fin 16).val = 0 ∧ s.index.toNat + (1 : Fin 16).val - 1 ≤ 0xFFF ∧
      (0 < (2 : Fin 16).val ∧ 0xFFF < s.index.toNat + (2 : Fin 16).val - 1) ∧
      SpriteSets s 0 0 1 0 0 ∧ ¬SpriteSets s 0 0 0 0 0 :=
  ⟨by decide, by decide, by decide, ⟨0, 0, by decide, by decide, by decide, by decide, by decide⟩,
    fun ⟨r, _, h, _⟩ => Nat.not_lt_zero r h⟩

theorem witness_DrwSetsVfExactlyOnErasure :
    let s := (poke 0x300 0x80 (withIndex 0x300 [])).setDisplay (Display.xorWrite Display.clear 0 0 true).1
    exec (.drw 0 0 1) s = .next (after (exec (.drw 0 0 1) s)) ∧ (after (exec (.drw 0 0 1) s)).status = .stepped :=
  ⟨exec_after _ _, by decide⟩

/-- One entry, a full stack, an empty one. -/
theorem witness_RetPopsOrUnderflows :
    (0 : Fin 16).val + 1 = ({ State.reset with sp := 1 } : State).sp.val ∧
    (15 : Fin 16).val + 1 = ({ State.reset with sp := 16 } : State).sp.val ∧ State.reset.sp = 0 := by decide

theorem witness_CallPushesItsAddressOrOverflows :
    (0 : Fin 16).val = State.reset.sp.val ∧ (15 : Fin 16).val = ({ State.reset with sp := 15 } : State).sp.val ∧
    ({ State.reset with sp := 16 } : State).sp.val = 16 := by decide

theorem witness_CallThenReturnComesBackAfterTheCall :
    let s := { State.reset with sp := 15 }
    let t := after (exec (.call 0x300) s)
    exec (.call 0x300) s = .next t ∧ t.status = .stepped ∧ ({ t with pc := 0x302 } : State).sp = t.sp ∧
      ({ t with pc := 0x302 } : State).stack = t.stack := ⟨exec_after _ _, by decide, rfl, rfl⟩

theorem witness_RegisterSkipsAdvanceByFourOrTwo :
    (withRegs [(3, 0x42)]).reg 3 = 0x42 ∧ (withRegs [(3, 0x42)]).reg 3 ≠ 0x43 ∧
    (withRegs [(3, 0x42)]).reg 3 ≠ (withRegs [(3, 0x42)]).reg 4 ∧ (15 : BitVec 4) ≠ 0 := by decide

theorem witness_DeadStackEntriesAreUnobservable :
    SameButDeadStack (ready 0x2300 []) { ready 0x2300 [] with stack := Vector.replicate 16 0x1234 } ∧
    StepsTo (ready 0x2300 []) (after (step (ready 0x2300 []))) :=
  ⟨⟨rfl, fun k h => absurd h (Nat.not_lt_zero k.val)⟩, step_after _, fun _ => rfl⟩

theorem witness_AddRegWrapsAndSetsCarry : (0 : RegIdx) ≠ 15 ∧ (1 : RegIdx) ≠ 0 ∧ (1 : RegIdx) ≠ 15 := by decide

theorem witness_ReadingsAgreeAwayFromVf :
    (0 : RegIdx) ≠ 15 ∧ (1 : RegIdx) ≠ 15 ∧
    Instr.shl 0 1 ∈ [Instr.addReg 0 1, .subReg 0 1, .shr 0 1, .subnReg 0 1, .shl 0 1] := by decide

/-- The largest index that is set, and the smallest that is not, of `Fx1E` and of `Fx29`. -/
theorem witness_IndexIsSetExactlyOrFaults :
    (withIndex 0xF00 [(0, 0xFF)]).index.toNat + ((withIndex 0xF00 [(0, 0xFF)]).reg 0).toNat = 0xFFF ∧
    (withIndex 0xF01 [(0, 0xFF)]).index.toNat + ((withIndex 0xF01 [(0, 0xFF)]).reg 0).toNat = 0x1000 ∧
    (let s := { withRegs [(0, 0xFF)] with cfg := { Config.standard with fontBase := 0xB04 } }
     s.cfg.fontBase + 5 * (s.reg 0).toNat = 0xFFF) ∧
    (let s := { withRegs [(0, 0xFF)] with cfg := { Config.standard with fontBase := 0xB05 } }
     s.cfg.fontBase + 5 * (s.reg 0).toNat = 0x1000) := by decide

/-- Below the font and above it, on its first and last byte, and at the end of memory. -/
theorem witness_BcdStoresTheDecimalDigits :
    let onFont : Nat → Bool := fun i => decide (i ≤ 0x050 + 79 ∧ 0x050 ≤ i + 2)
    Memory.wf (withIndex 0xFFD []).mem ∧ (withIndex 0xFFD []).index.toNat + 2 ≤ 0xFFF ∧
      0xFFF < (withIndex 0xFFE []).index.toNat + 2 ∧ (withIndex 0x04E []).cfg.fontBase = 0x050 ∧
      (withIndex 0x04E []).cfg.fontWriteProtect = true ∧
      [0x04D, 0x04E, 0x09F, 0x0A0].map onFont = [false, true, true, false] := by decide

theorem witness_StoreRegsCopiesV0ToVx :
    let onFont : Nat → Bool := fun i => decide (i ≤ 0x050 + 79 ∧ 0x050 ≤ i + (15 : RegIdx).val)
    Memory.wf (withIndex 0xFF0 []).mem ∧ (withIndex 0xFF0 []).index.toNat + (15 : RegIdx).val ≤ 0xFFF ∧
      0xFFF < (withIndex 0xFF1 []).index.toNat + (15 : RegIdx).val ∧ (withIndex 0x041 []).cfg.fontBase = 0x050 ∧
      (withIndex 0x041 []).cfg.fontWriteProtect = true ∧
      [0x040, 0x041, 0x09F, 0x0A0].map onFont = [false, true, true, false] := by decide

theorem witness_LoadRegsCopiesToV0ToVx :
    (withIndex 0xFF0 []).index.toNat + (15 : RegIdx).val ≤ 0xFFF ∧
    0xFFF < (withIndex 0xFF1 []).index.toNat + (15 : RegIdx).val := by decide

theorem witness_StoreThenLoadRestoresTheRegisters :
    let s := withIndex 0x300 [(0, 1), (1, 2)]
    let t := after (exec (.storeRegs 1) s)
    Memory.wf s.mem ∧ exec (.storeRegs 1) s = .next t ∧ t.status = .stepped ∧ (t.setReg 0 9).index = s.index ∧
      ∀ k : RegIdx, k ≤ 1 → Memory.read (t.setReg 0 9).mem (s.at k.val) = Memory.read t.mem (s.at k.val) :=
  ⟨by decide, exec_after _ _, by decide, by decide, fun _ _ => rfl⟩

/-- `V0` and `V1` hold the word `F30A`. -/
theorem witness_AStoreOverTheNextWordIsRunByTheNextStep :
    let s := (ready 0xF155 [(0, 0xF3), (1, 0x0A)]).setIndex 0x202
    s.Inv ∧ s.fault = none ∧ s.fetch = .instr (.storeRegs 1) ∧ 1 ≤ (1 : RegIdx).val ∧
      s.index.toNat = s.pc.toNat + 2 ∧ decodeWord (s.reg 0 ++ s.reg 1) = some (.waitKey 3) ∧
      step s = .next (after (step s)) ∧ (after (step s)).status = .stepped :=
  ⟨inv_of_running (by decide) (by decide) (by decide) (by decide) rfl rfl rfl, rfl, by decide, by decide, by decide,
    by decide, step_after _, by decide⟩

theorem witness_MemoriesWithEqualBytesAreEqual :
    Memory.wf (Memory.write (Memory.write [] 0x301 2) 0x300 1) ∧ Memory.wf [(0x300, 1), (0x301, 2)] ∧
    (∀ a, Memory.read (Memory.write (Memory.write [] 0x301 2) 0x300 1) a = Memory.read [(0x300, 1), (0x301, 2)] a) :=
  ⟨by decide, by decide, fun _ => rfl⟩

/-- The last key, pressed and not, and the first number that is no key. -/
theorem witness_KeySkipsFollowTheSnapshot :
    ((withRegs [(0, 0x0F)]).reg 0).toNat = (15 : Fin 16).val ∧
    (pressed 15 (withRegs [(0, 0x0F)])).keys[(15 : Fin 16)] = true ∧ (withRegs [(0, 0x0F)]).keys[(15 : Fin 16)] = false ∧
    0xF < ((withRegs [(0, 0x10)]).reg 0).toNat := by decide

theorem witness_WaitKeyBlocksOrStoresTheLeastKey :
    (∀ k : Fin 16, State.reset.keys[k] = false) ∧ (pressed 15 State.reset).keys[(15 : Fin 16)] = true ∧
    (∀ j : Fin 16, j < 15 → (pressed 15 State.reset).keys[j] = false) := by decide

theorem witness_TheSoundTimerIsReadByNoInstruction :
    (∀ x, Instr.ldFromDt 0 ≠ .setSt x) ∧
    exec (.ldFromDt 0) State.reset = .next (after (exec (.ldFromDt 0) State.reset)) := ⟨by decide, exec_after _ _⟩

/-- A record of each kind. -/
theorem witness_EveryFaultKindHasItsOwnCode :
    [FaultKind.unknownInstruction, .stackOverflow, .stackUnderflow, .memoryOutOfRange, .keyIndexOutOfRange,
      .fontRegionWrite, .misalignedFetch].map (fun k => FaultRecord.code ⟨k, none, 0x200, none⟩) =
      [1, 2, 3, 4, 5, 6, 7] := by decide

end Sys2Proof.Tests
end

section
/-! ### A recognised word is the encoding of what it decodes to -/

namespace Sys2Proof.Machine

theorem encAddr_fields (w : Word) : encAddr (opClass w) (fieldNnn w) = w := by
  apply BitVec.eq_of_getLsbD_eq
  intro i hi
  simp only [encAddr, opClass, fieldNnn, BitVec.getLsbD_extractLsb', BitVec.getLsbD_append]
  interval_cases i <;> simp

theorem encXkk_fields (w : Word) : encXkk (opClass w) (fieldX w) (fieldKk w) = w := by
  apply BitVec.eq_of_getLsbD_eq
  intro i hi
  simp only [encXkk, opClass, fieldX, fieldKk, BitVec.ofFin_toFin, BitVec.getLsbD_extractLsb', BitVec.getLsbD_append]
  interval_cases i <;> simp

theorem encXyn_fields (w : Word) : encXyn (opClass w) (fieldX w) (fieldY w) (nibble4 w) = w := by
  apply BitVec.eq_of_getLsbD_eq
  intro i hi
  simp only [encXyn, opClass, fieldX, fieldY, nibble4, BitVec.ofFin_toFin, BitVec.getLsbD_extractLsb',
    BitVec.getLsbD_append]
  interval_cases i <;> simp

theorem encode_of_decodeClass0 {w : Word} {i : Instr} (h : decodeClass0 w = some i) : encode i = w := by
  unfold decodeClass0 at h
  split at h
  · next hw => cases h; exact hw.symm
  · split at h
    · next hw => cases h; exact hw.symm
    · cases h

theorem encode_of_decodeClass8 {x y : RegIdx} {n : BitVec 4} {i : Instr} (h : decodeClass8 x y n = some i) :
    encode i = encXyn 0x8#4 x y n := by
  unfold decodeClass8 at h
  split at h <;> cases h <;> rfl

theorem encode_of_decodeClassE {x : RegIdx} {kk : Byte} {i : Instr} (h : decodeClassE x kk = some i) :
    encode i = encXkk 0xE#4 x kk := by
  unfold decodeClassE at h
  split at h <;> cases h <;> rfl

theorem encode_of_decodeClassF {x : RegIdx} {kk : Byte} {i : Instr} (h : decodeClassF x kk = some i) :
    encode i = encXkk 0xF#4 x kk := by
  unfold decodeClassF at h
  split at h <;> cases h <;> rfl

/-- Each instruction has one word (30_encoding.md rule R73). -/
theorem encode_of_decodeWord {w : Word} {i : Instr} (h : decodeWord w = some i) : encode i = w := by
  have addr := encAddr_fields w
  have xkk := encXkk_fields w
  have xyn := encXyn_fields w
  unfold decodeWord at h
  split at h
  case h_1 => exact encode_of_decodeClass0 h
  case h_9 hc => rw [encode_of_decodeClass8 h, ← hc, xyn]
  case h_15 hc => rw [encode_of_decodeClassE h, ← hc, xkk]
  case h_16 hc => rw [encode_of_decodeClassF h, ← hc, xkk]
  case h_6 hc | h_10 hc =>
    split at h
    · next hn => cases h; rw [encode, ← hc, ← hn, xyn]
    · cases h
  case h_14 hc => cases h; rw [encode, ← hc]; exact xyn
  case h_2 hc | h_3 hc | h_11 hc | h_12 hc => cases h; rw [encode, ← hc, addr]
  case h_17 => cases h
  all_goals
    next hc => cases h; rw [encode, ← hc, xkk]

end Sys2Proof.Machine
end

section
/-! ### What every instruction can do, said once -/

namespace Sys2Proof.Machine

variable {i : Instr} {s t : State}

/-- The instructions whose completion writes general registers and nothing else but `pc` and `status`. -/
def writesOnlyRegs (i : Instr) : Bool :=
  match i with
  | .ldImm _ _ | .addImm _ _ | .ldReg _ _ | .orReg _ _ | .andReg _ _ | .xorReg _ _ | .addReg _ _ | .subReg _ _
  | .shr _ _ | .subnReg _ _ | .shl _ _ | .ldFromDt _ | .waitKey _ | .loadRegs _ => true
  | .cls | .ret | .jp _ | .call _ | .seImm _ _ | .sneImm _ _ | .seReg _ _ | .sneReg _ _ | .ldIndex _ | .jpV0 _
  | .rnd _ _ | .drw _ _ _ | .skp _ | .sknp _ | .setDt _ | .setSt _ | .addIndex _ | .ldGlyph _ | .bcd _
  | .storeRegs _ => false

/-- `Completed s i t`: the instruction `i` may complete from `s` with `t`. The values of `pc` and the pieces written are
exact; of the values written, what the invariant and the rule of `VF` ask. -/
inductive Completed (s : State) : Instr → State → Prop
  | cls : Completed s .cls ((s.setDisplay Display.clear).complete (s.pc + 2))
  | ret (k : Fin 16) (top : k.val + 1 = s.sp.val) :
      Completed s .ret (({ s with sp := k.castSucc } : State).complete (s.stack[k] + 2))
  | jp (nnn : Addr) : Completed s (.jp nnn) (s.complete (zextAddr nnn))
  | call (nnn : Addr) (k : Fin 16) (free : k.val = s.sp.val) :
      Completed s (.call nnn)
        (({ s with stack := s.stack.set k s.pc, sp := k.succ } : State).complete (zextAddr nnn))
  | jpV0 (nnn : Addr) : Completed s (.jpV0 nnn) (s.complete (zextAddr nnn + zextByte (s.reg 0)))
  | seImm (x : RegIdx) (kk : Byte) :
      Completed s (.seImm x kk) (s.complete (if s.reg x = kk then s.pc + 4 else s.pc + 2))
  | sneImm (x : RegIdx) (kk : Byte) :
      Completed s (.sneImm x kk) (s.complete (if s.reg x ≠ kk then s.pc + 4 else s.pc + 2))
  | seReg (x y : RegIdx) :
      Completed s (.seReg x y) (s.complete (if s.reg x = s.reg y then s.pc + 4 else s.pc + 2))
  | sneReg (x y : RegIdx) :
      Completed s (.sneReg x y) (s.complete (if s.reg x ≠ s.reg y then s.pc + 4 else s.pc + 2))
  | skp (x : RegIdx) (k : Fin 16) (key : k.val = (s.reg x).toNat) :
      Completed s (.skp x) (s.complete (if s.keys[k] = true then s.pc + 4 else s.pc + 2))
  | sknp (x : RegIdx) (k : Fin 16) (key : k.val = (s.reg x).toNat) :
      Completed s (.sknp x) (s.complete (if s.keys[k] = false then s.pc + 4 else s.pc + 2))
  | regs {i : Instr} (r : Vector Byte 16) (only : writesOnlyRegs i = true)
      (keepsVf : writesVf i = false → r[vf] = s.regs[vf]) : Completed s i ((s.setRegs r).complete (s.pc + 2))
  | rnd (x : RegIdx) (kk v : Byte) (n : Nat) :
      Completed s (.rnd x kk) ((({ s with draws := n } : State).setReg x v).complete (s.pc + 2))
  | drw (x y : RegIdx) (n : Fin 16) (d : Display) (v : Byte) :
      Completed s (.drw x y n) (((s.setDisplay d).setReg vf v).complete (s.pc + 2))
  | setDt (x : RegIdx) : Completed s (.setDt x) ((s.setDelay (s.reg x)).complete (s.pc + 2))
  | setSt (x : RegIdx) : Completed s (.setSt x) ((s.setSound (s.reg x)).complete (s.pc + 2))
  | ldIndex (nnn : Addr) : Completed s (.ldIndex nnn) ((s.setIndex (zextAddr nnn)).complete (s.pc + 2))
  | addIndex (x : RegIdx) (v : Nat) (range : v ≤ 0xFFF) :
      Completed s (.addIndex x) ((s.setIndex (BitVec.ofNat 16 v)).complete (s.pc + 2))
  | ldGlyph (x : RegIdx) (v : Nat) (range : v ≤ 0xFFF) :
      Completed s (.ldGlyph x) ((s.setIndex (BitVec.ofNat 16 v)).complete (s.pc + 2))
  | bcd (x : RegIdx) (bytes : List Byte) (range : s.index.toNat + bytes.length ≤ Config.memSize) :
      Completed s (.bcd x) ((s.setMem (Memory.writeBytes s.mem s.index.toNat bytes)).complete (s.pc + 2))
  | storeRegs (x : RegIdx) (bytes : List Byte) (range : s.index.toNat + bytes.length ≤ Config.memSize) :
      Completed s (.storeRegs x) ((s.setMem (Memory.writeBytes s.mem s.index.toNat bytes)).complete (s.pc + 2))

/-- An instruction that was fetched (so that `pc <= 0xFFE`) records a fault of its own only as its kind's row of
60_exceptions.md rule R211 has it. -/
def OwnFault (i : Instr) (s : State) (kind : FaultKind) (addr : Option Nat) : Prop :=
  s.pc.toNat ≤ 0xFFE → FaultRecord.wellRecorded s.cfg ⟨kind, some (encode i), s.pc, addr⟩

/-- The three ways in which an instruction ends, each with what it may have written. -/
inductive ExecEnds (s : State) : Instr → State → Prop
  | completes {i : Instr} {t : State} (done : Completed s i t) : ExecEnds s i t
  | blocks (x : RegIdx) : ExecEnds s (.waitKey x) { s with status := .blocked }
  | faults {i : Instr} (kind : FaultKind) (addr : Option Nat) (own : OwnFault i s kind addr) :
      ExecEnds s i (s.enterFault kind (some (encode i)) addr)

/-! ### The faults are their instructions' own -/

/-- A range fault records an address above `0xFFF`. -/
theorem ownFault_memoryOutOfRange {a : Nat} (h : 0xFFF < a) : OwnFault i s .memoryOutOfRange (some a) :=
  fun hpc => ⟨by simpa using hpc, a, rfl, h⟩

theorem ownFault_firstOutside : OwnFault i s .memoryOutOfRange (some (max s.index.toNat 0x1000)) :=
  ownFault_memoryOutOfRange (by omega)

theorem ownFault_keyIndex (x : RegIdx) (hi : i = .skp x ∨ i = .sknp x) : OwnFault i s .keyIndexOutOfRange none :=
  fun _ => ⟨⟨x, hi.imp (congrArg (some <| encode ·)) (congrArg (some <| encode ·))⟩, rfl⟩

/-- A store on the protected font records an address of the font. -/
theorem ownFault_fontRegionWrite {count : Nat} (x : RegIdx) (hi : i = .bcd x ∨ i = .storeRegs x)
    (hp : s.cfg.fontWriteProtect = true) (hf : s.touchesFont count = true) :
    OwnFault i s .fontRegionWrite (some (max s.index.toNat s.cfg.fontBase)) := by
  obtain ⟨hlow, -⟩ := (touchesFont_iff s count).1 hf
  exact fun _ => ⟨⟨x, hi.imp (congrArg (some <| encode ·)) (congrArg (some <| encode ·))⟩, hp, _, rfl,
    by omega, show _ < _ + 80 by omega⟩

/-! ### Every instruction ends in one of the three ways -/

theorem inRange_of_not_leavesMemory {count : Nat} (h : s.leavesMemory (count + 1) = false) :
    s.index.toNat + (count + 1) ≤ Config.memSize := by
  have := (leavesMemory_iff s (count + 1)).not.1 (by simp [h])
  show _ ≤ 4096
  omega

/-- A write of a register other than `VF` keeps `VF`. -/
theorem set_vf_of_ne (r : Vector Byte 16) (x : RegIdx) (v : Byte) (h : decide (x = 15) = false) :
    (r.set x v)[vf] = r[vf] := by
  have hx : vf ≠ x := fun e => of_decide_eq_false h e.symm
  rw [set_getElem, if_neg hx]

/-- `Fx65` with `x` other than `F` keeps `VF`. -/
theorem loadedRegs_vf_of_ne (x : RegIdx) (h : decide (x = 15) = false) : (s.loadedRegs x)[vf] = s.regs[vf] := by
  have hx : ¬vf ≤ x := fun hle => of_decide_eq_false h (Fin.last_le_iff.1 hle)
  rw [loadedRegs_getElem, if_neg hx]
  rfl

/-- Every instruction answers a next state, and ends in one of the three ways. -/
theorem exec_execEnds (i : Instr) (s : State) : ∃ t, exec i s = .next t ∧ ExecEnds s i t := by
  cases i
  case ret =>
    rcases execRet_cases s with ⟨h, e⟩ | ⟨_, e⟩
    · exact ⟨_, e, .completes (.ret ⟨s.sp.val - 1, by omega⟩ (by simp; omega))⟩
    · exact ⟨_, e, .faults _ _ fun _ => ⟨rfl, rfl⟩⟩
  case call nnn =>
    rcases execCall_cases nnn s with ⟨h, e⟩ | ⟨_, e⟩
    · exact ⟨_, e, .completes (.call nnn ⟨s.sp.val, h⟩ rfl)⟩
    · exact ⟨_, e, .faults _ _ fun _ => ⟨⟨nnn, rfl⟩, rfl⟩⟩
  case skp x =>
    rcases execSkp_cases x s with ⟨h, e⟩ | ⟨_, e⟩
    · exact ⟨_, e, .completes (.skp x ⟨_, h⟩ rfl)⟩
    · exact ⟨_, e, .faults _ _ (ownFault_keyIndex x (.inl rfl))⟩
  case sknp x =>
    rcases execSknp_cases x s with ⟨h, e⟩ | ⟨_, e⟩
    · exact ⟨_, e, .completes (.sknp x ⟨_, h⟩ rfl)⟩
    · exact ⟨_, e, .faults _ _ (ownFault_keyIndex x (.inr rfl))⟩
  case waitKey x =>
    rcases execWaitKey_cases x s with ⟨_, _, _, e⟩ | ⟨_, e⟩
    · exact ⟨_, e, .completes (.regs _ rfl (set_vf_of_ne _ x _))⟩
    · exact ⟨_, e, .blocks x⟩
  case addIndex x =>
    rcases execAddIndex_cases x s with ⟨h, e⟩ | ⟨h, e⟩
    · exact ⟨_, e, .completes (.addIndex x _ h)⟩
    · exact ⟨_, e, .faults _ _ (ownFault_memoryOutOfRange h)⟩
  case ldGlyph x =>
    rcases execLdGlyph_cases x s with ⟨h, e⟩ | ⟨h, e⟩
    · exact ⟨_, e, .completes (.ldGlyph x _ h)⟩
    · exact ⟨_, e, .faults _ _ (ownFault_memoryOutOfRange h)⟩
  case drw x y n =>
    rcases execDrw_cases x y n s with ⟨_, _, _, e⟩ | ⟨_, e⟩
    · exact ⟨_, e, .completes (.drw x y n _ _)⟩
    · exact ⟨_, e, .faults _ _ ownFault_firstOutside⟩
  case loadRegs x =>
    rcases execLoadRegs_cases x s with ⟨_, e⟩ | ⟨_, e⟩
    · exact ⟨_, e, .completes (.regs _ rfl (loadedRegs_vf_of_ne x))⟩
    · exact ⟨_, e, .faults _ _ ownFault_firstOutside⟩
  case bcd x =>
    rcases execBcd_cases x s with ⟨_, e⟩ | ⟨_, hp, hf, e⟩ | ⟨h, _, e⟩
    · exact ⟨_, e, .faults _ _ ownFault_firstOutside⟩
    · exact ⟨_, e, .faults _ _ (ownFault_fontRegionWrite x (.inl rfl) hp hf)⟩
    · exact ⟨_, e, .completes (.bcd x _ (inRange_of_not_leavesMemory h))⟩
  case storeRegs x =>
    rcases execStoreRegs_cases x s with ⟨_, e⟩ | ⟨_, hp, hf, e⟩ | ⟨h, _, e⟩
    · exact ⟨_, e, .faults _ _ ownFault_firstOutside⟩
    · exact ⟨_, e, .faults _ _ (ownFault_fontRegionWrite x (.inr rfl) hp hf)⟩
    · exact ⟨_, e, .completes (.storeRegs x _ (by simpa using inRange_of_not_leavesMemory h))⟩
  case cls => exact ⟨_, rfl, .completes .cls⟩
  case jp nnn => exact ⟨_, rfl, .completes (.jp nnn)⟩
  case jpV0 nnn => exact ⟨_, rfl, .completes (.jpV0 nnn)⟩
  case seImm x kk => exact ⟨_, by simp [exec, execSeImm, skipIf_eq], .completes (.seImm x kk)⟩
  case sneImm x kk => exact ⟨_, by simp [exec, execSneImm, skipIf_eq], .completes (.sneImm x kk)⟩
  case seReg x y => exact ⟨_, by simp [exec, execSeReg, skipIf_eq], .completes (.seReg x y)⟩
  case sneReg x y => exact ⟨_, by simp [exec, execSneReg, skipIf_eq], .completes (.sneReg x y)⟩
  case rnd x kk => exact ⟨_, rfl, .completes (.rnd x kk _ _)⟩
  case setDt x => exact ⟨_, rfl, .completes (.setDt x)⟩
  case setSt x => exact ⟨_, rfl, .completes (.setSt x)⟩
  case ldIndex nnn => exact ⟨_, rfl, .completes (.ldIndex nnn)⟩
  case addReg | subReg | shr | subnReg | shl => exact ⟨_, rfl, .completes (.regs _ rfl nofun)⟩
  case ldImm x _ | addImm x _ | ldReg x _ | orReg x _ | andReg x _ | xorReg x _ | ldFromDt x =>
    exact ⟨_, rfl, .completes (.regs _ rfl (set_vf_of_ne _ x _))⟩

theorem execEnds_of_exec (h : exec i s = .next t) : ExecEnds s i t := by
  obtain ⟨u, e, ends⟩ := exec_execEnds i s
  obtain rfl := Host.Outcome.next.inj (e.symm.trans h)
  exact ends

/-- The same of a step that is given its byte. -/
theorem execEnds_of_execGiven {rand : Byte} (h : execGiven rand i s = .next t) : ExecEnds s i t := by
  by_cases hi : ∃ x kk, i = .rnd x kk
  · obtain ⟨x, kk, rfl⟩ := hi
    cases h
    exact .completes (.rnd x kk _ s.draws)
  · rw [execGiven_of_ne (fun x kk e => hi ⟨x, kk, e⟩)] at h
    exact execEnds_of_exec h

end Sys2Proof.Machine
end

section
/-! ### What an instruction writes -/

namespace Sys2Proof.Machine

variable {i : Instr} {s t : State}

/-- Settles O14, by the three ways in which an instruction ends. -/
theorem eachPieceIsWrittenOnlyByItsInstructions : Obligations.EachPieceIsWrittenOnlyByItsInstructions := by
  unfold Obligations.EachPieceIsWrittenOnlyByItsInstructions
  intro i s t h
  cases execEnds_of_exec h with
  | completes done => cases done <;> simp
  | blocks x => simp
  | faults kind addr own => simp

/-- Only `00EE` and `2nnn` write the stack pointer, and only `2nnn` an entry. -/
theorem exec_stack_of_ne (h : exec i s = .next t) (hc : ∀ nnn, i ≠ .call nnn) :
    t.stack = s.stack ∧ (i ≠ .ret → t.sp = s.sp) := by
  obtain ⟨-, stack, sp, -⟩ := eachPieceIsWrittenOnlyByItsInstructions i s t h
  refine ⟨?_, fun hr => ?_⟩
  · by_contra hne
    obtain ⟨nnn, e⟩ := stack hne
    exact hc nnn e
  · by_contra hne
    rcases sp hne with ⟨nnn, e⟩ | e
    · exact hc nnn e
    · exact hr e

/-- Only `Fx18` writes the sound timer. -/
theorem exec_st_of_ne (h : exec i s = .next t) (hs : ∀ x, i ≠ .setSt x) : t.st = s.st := by
  obtain ⟨-, -, -, -, st, -⟩ := eachPieceIsWrittenOnlyByItsInstructions i s t h
  by_contra hne
  obtain ⟨x, e⟩ := st hne
  exact hs x e

/-! ### `VF` -/

theorem Completed.reg_vf (done : Completed s i t) (h : writesVf i = false) : t.reg 15 = s.reg 15 := by
  cases done with
  | regs r only keepsVf => exact keepsVf h
  | rnd x kk v n => exact set_vf_of_ne s.regs x v h
  | drw x y n d v => cases h
  | _ => rfl

/-- Settles O15: an instruction that completes writes `VF` only so, and one that blocks or faults writes no register. -/
theorem vfIsWrittenOnlyAsFlagOrDestination : Obligations.VfIsWrittenOnlyAsFlagOrDestination := by
  unfold Obligations.VfIsWrittenOnlyAsFlagOrDestination
  intro i s t h hne
  by_contra hw
  refine hne ?_
  cases execEnds_of_exec h with
  | completes done => exact done.reg_vf (by simpa using hw)
  | blocks x => rfl
  | faults kind addr own => rfl

/-! ### `pc` -/

theorem zextAddr_toNat (nnn : Addr) : (zextAddr nnn).toNat = nnn.toNat := by
  unfold zextAddr
  exact BitVec.toNat_setWidth_of_le (by omega)

theorem zextByte_toNat (v : Byte) : (zextByte v).toNat = v.toNat := by
  unfold zextByte
  exact BitVec.toNat_setWidth_of_le (by omega)

/-- `nnn + V0` is at most `0xFFF + 0xFF`, so its 16-bit sum is exact (41_control_flow.md rule R127). -/
theorem jumpTarget_toNat (nnn : Addr) (v : Byte) : (zextAddr nnn + zextByte v).toNat = nnn.toNat + v.toNat := by
  rw [BitVec.toNat_add, zextAddr_toNat, zextByte_toNat]
  omega

/-- Settles O13, with `pc` as each way of ending leaves it. -/
theorem theProgramCounterMovesInThreeWays : Obligations.TheProgramCounterMovesInThreeWays := by
  unfold Obligations.TheProgramCounterMovesInThreeWays
  intro i s t h
  cases execEnds_of_exec h with
  | blocks x => exact ⟨fun _ => rfl, nofun⟩
  | faults kind addr own => exact ⟨fun _ => rfl, nofun⟩
  | completes done =>
    refine ⟨fun hns => ?_, fun _ => ?_⟩
    · cases done <;> exact absurd rfl hns
    · cases done with
      | jp nnn => exact zextAddr_toNat nnn
      | call nnn k free => exact zextAddr_toNat nnn
      | jpV0 nnn => exact jumpTarget_toNat nnn _
      | ret k top => exact ⟨k, top, rfl⟩
      | skp x k key => exact ⟨k, key, rfl⟩
      | sknp x k key => exact ⟨k, key, rfl⟩
      | regs r only keepsVf => cases i <;> cases only <;> rfl
      | _ => rfl

end Sys2Proof.Machine
end

section
/-! ### The invariant -/

namespace Sys2Proof.Machine

variable {i : Instr} {s t : State}

/-! #### At reset, and under the transactions other than a step -/

/-- The state after reset meets the invariant, however many bytes have been drawn. -/
theorem initial_inv {c : Config} (hc : c.wf) (n : Nat) : ({ State.initial c with draws := n } : State).Inv where
  memCanonical := Memory.wf_nil
  configWf := hc
  indexInMemory := Nat.zero_le _
  pcBound := show (0x200 : Word).toNat ≤ 0x10FE by decide
  stackFetched _ hk := absurd hk (Nat.not_lt_zero _)
  faultStatus := ⟨nofun, nofun⟩
  faultPc := nofun
  faultRecorded := nofun
  faultWord := nofun
  blockedAtWait := nofun
  beforeFirstStep _ := ⟨rfl, rfl⟩

/-- Settles O17: the default font lies below the ROM. -/
theorem resetMeetsTheInvariant : Obligations.ResetMeetsTheInvariant :=
  initial_inv (c := Config.standard) (by decide) 0

/-- The timers and the keys are free: the invariant does not speak of them. -/
theorem State.Inv.withInputs (hs : s.Inv) (dt st : Byte) (keys : Vector Bool 16) :
    ({ s with dt := dt, st := st, keys := keys } : State).Inv :=
  ⟨hs.memCanonical, hs.configWf, hs.indexInMemory, hs.pcBound, hs.stackFetched, hs.faultStatus, hs.faultPc,
    hs.faultRecorded, hs.faultWord, hs.blockedAtWait, hs.beforeFirstStep⟩

/-- A load writes memory before the first step, when nothing has blocked or faulted. -/
theorem State.Inv.setMem (hs : s.Inv) (fresh : s.stepTaken = false) {m : Memory} (hm : Memory.wf m) :
    (s.setMem m).Inv := by
  obtain ⟨hstatus, hfault⟩ := hs.beforeFirstStep fresh
  exact
    { memCanonical := hm
      configWf := hs.configWf
      indexInMemory := hs.indexInMemory
      pcBound := hs.pcBound
      stackFetched := hs.stackFetched
      faultStatus := hs.faultStatus
      faultPc := hs.faultPc
      faultRecorded := hs.faultRecorded
      faultWord := fun r w h => by simp [hfault] at h
      blockedAtWait := fun h => by simp [hstatus] at h
      beforeFirstStep := hs.beforeFirstStep }

theorem State.Inv.markStep (hs : s.Inv) : s.markStep.Inv :=
  ⟨hs.memCanonical, hs.configWf, hs.indexInMemory, hs.pcBound, hs.stackFetched, hs.faultStatus, hs.faultPc,
    hs.faultRecorded, hs.faultWord, hs.blockedAtWait, nofun⟩

/-! #### Under the three ends of an instruction -/

/-- A fault that its kind allows, with the word that stands at `pc`, keeps the invariant. -/
theorem State.Inv.enterFault (hs : s.Inv) (marked : s.stepTaken = true) {kind : FaultKind} {word : Option Word}
    {addr : Option Nat} (recorded : FaultRecord.wellRecorded s.cfg ⟨kind, word, s.pc, addr⟩)
    (atPc : ∀ w, word = some w → s.wordAtPc = w) : (s.enterFault kind word addr).Inv where
  memCanonical := hs.memCanonical
  configWf := hs.configWf
  indexInMemory := hs.indexInMemory
  pcBound := hs.pcBound
  stackFetched := hs.stackFetched
  faultStatus := by simp
  faultPc r hr := by cases hr; rfl
  faultRecorded r hr := by cases hr; exact recorded
  faultWord r w hr hw := by cases hr; exact atPc w hw
  blockedAtWait := nofun
  beforeFirstStep h := by simp [marked] at h

/-- A block keeps the invariant: the same `Fx0A` stands at `pc`. -/
theorem State.Inv.block (hs : s.Inv) (marked : s.stepTaken = true) (running : s.fault = none) {x : RegIdx}
    (fetched : s.fetch = .instr (.waitKey x)) : ({ s with status := .blocked } : State).Inv where
  memCanonical := hs.memCanonical
  configWf := hs.configWf
  indexInMemory := hs.indexInMemory
  pcBound := hs.pcBound
  stackFetched := hs.stackFetched
  faultStatus := by simp [running]
  faultPc := hs.faultPc
  faultRecorded := hs.faultRecorded
  faultWord := hs.faultWord
  blockedAtWait _ := ⟨x, fetched⟩
  beforeFirstStep h := by simp [marked] at h

/-- Completing clears a block and keeps the fault record, the configuration and the mark of the first step. -/
theorem Completed.keeps (done : Completed s i t) :
    t.status = .stepped ∧ t.fault = s.fault ∧ t.cfg = s.cfg ∧ t.stepTaken = s.stepTaken := by
  cases done <;> exact ⟨rfl, rfl, rfl, rfl⟩

theorem Completed.wf_mem (done : Completed s i t) (hm : Memory.wf s.mem) : Memory.wf t.mem := by
  cases done with
  | bcd x bytes range => exact Memory.wf_writeBytes bytes hm range
  | storeRegs x bytes range => exact Memory.wf_writeBytes bytes hm range
  | _ => exact hm

/-- `I <= 0xFFF` after every write of it (10_state.md rule R27). -/
theorem Completed.index_le (done : Completed s i t) (hi : s.index.toNat ≤ 0xFFF) : t.index.toNat ≤ 0xFFF := by
  cases done with
  | ldIndex nnn =>
    have e : ((s.setIndex (zextAddr nnn)).complete (s.pc + 2)).index.toNat = nnn.toNat := zextAddr_toNat nnn
    omega
  | addIndex x v range => exact (BitVec.toNat_ofNat v 16).trans_le ((Nat.mod_le _ _).trans range)
  | ldGlyph x v range => exact (BitVec.toNat_ofNat v 16).trans_le ((Nat.mod_le _ _).trans range)
  | _ => exact hi

/-- From a word that was fetched, no advance and no skip passes `0x1002`. -/
theorem skip_toNat_le {pc : Word} (h : pc.toNat ≤ 0xFFE) (c : Prop) [Decidable c] :
    (if c then pc + 4 else pc + 2).toNat ≤ 0x10FE := by
  split <;> bv_omega

theorem advance_toNat_le {pc : Word} (h : pc.toNat ≤ 0xFFE) : (pc + 2).toNat ≤ 0x10FE := by bv_omega

/-- The largest `pc` that an instruction leaves is that of `Bnnn`, `0xFFF + 0xFF` (10_state.md rule R26). -/
theorem Completed.pc_le (done : Completed s i t) (fetched : s.pc.toNat ≤ 0xFFE)
    (stacked : ∀ k : Fin 16, k.val < s.sp.val → (s.stack[k]).toNat ≤ 0xFFE) : t.pc.toNat ≤ 0x10FE := by
  cases done with
  | jp nnn => exact (zextAddr_toNat nnn).trans_le (by omega)
  | call nnn k free => exact (zextAddr_toNat nnn).trans_le (by omega)
  | jpV0 nnn => exact (jumpTarget_toNat nnn _).trans_le (by omega)
  | ret k top => exact advance_toNat_le (stacked k (by omega))
  | seImm x kk => exact skip_toNat_le fetched _
  | sneImm x kk => exact skip_toNat_le fetched _
  | seReg x y => exact skip_toNat_le fetched _
  | sneReg x y => exact skip_toNat_le fetched _
  | skp x k key => exact skip_toNat_le fetched _
  | sknp x k key => exact skip_toNat_le fetched _
  | _ => exact advance_toNat_le fetched

/-- What is on the stack fetched: a call pushes its own address, a return drops an entry (41_control_flow.md rule
R120). -/
theorem Completed.stack_le (done : Completed s i t) (fetched : s.pc.toNat ≤ 0xFFE)
    (stacked : ∀ k : Fin 16, k.val < s.sp.val → (s.stack[k]).toNat ≤ 0xFFE) :
    ∀ k : Fin 16, k.val < t.sp.val → (t.stack[k]).toNat ≤ 0xFFE := by
  cases done with
  | ret top h => exact fun k hk => stacked k (by simp at hk; omega)
  | call nnn top free =>
    intro k hk
    simp only [State.complete_stack, State.complete_sp, Fin.val_succ, Fin.getElem_fin, Vector.getElem_set] at hk ⊢
    split
    · exact fetched
    · next hne => exact stacked k (by omega)
  | _ => exact stacked

/-- An instruction that was fetched and completes keeps the invariant. -/
theorem State.Inv.completed (hs : s.Inv) (marked : s.stepTaken = true) (running : s.fault = none)
    (fetched : s.pc.toNat ≤ 0xFFE) (done : Completed s i t) : t.Inv := by
  obtain ⟨hstatus, hfault, hcfg, hmark⟩ := done.keeps
  rw [running] at hfault
  rw [marked] at hmark
  exact
    { memCanonical := done.wf_mem hs.memCanonical
      configWf := hcfg ▸ hs.configWf
      indexInMemory := done.index_le hs.indexInMemory
      pcBound := done.pc_le fetched hs.stackFetched
      stackFetched := done.stack_le fetched hs.stackFetched
      faultStatus := by simp [hstatus, hfault]
      faultPc := fun r h => by simp [hfault] at h
      faultRecorded := fun r h => by simp [hfault] at h
      faultWord := fun r w h => by simp [hfault] at h
      blockedAtWait := fun h => by simp [hstatus] at h
      beforeFirstStep := fun h => by simp [hmark] at h }

/-- Whichever way a fetched instruction ends, the invariant is kept. -/
theorem State.Inv.execEnds (hs : s.Inv) (marked : s.stepTaken = true) (running : s.fault = none)
    (fetched : s.fetch = .instr i) (ends : ExecEnds s i t) : t.Inv := by
  obtain ⟨hpc, -, decoded⟩ := fetch_instr fetched
  cases ends with
  | completes done => exact hs.completed marked running hpc done
  | blocks x => exact hs.block marked running fetched
  | faults kind addr own =>
    refine hs.enterFault marked (own hpc) fun w hw => ?_
    rw [← encode_of_decodeWord decoded]
    exact Option.some.inj hw

/-- A fault of the fetch or of the decoding keeps the invariant. -/
theorem State.Inv.fetchFault (hs : s.Inv) (marked : s.stepTaken = true) {kind : FaultKind} {word : Option Word}
    {addr : Option Nat} (fetched : s.fetch = .fault kind word addr) : (s.enterFault kind word addr).Inv := by
  rcases fetch_fault fetched with
    ⟨hpc, rfl, rfl, rfl⟩ | ⟨-, check, odd, rfl, rfl, rfl⟩ | ⟨-, -, unknown, rfl, rfl, rfl⟩
  · exact hs.enterFault marked ⟨by simpa using hpc, _, rfl, show 0xFFF < _ by omega⟩ nofun
  · exact hs.enterFault marked ⟨rfl, rfl, odd, check⟩ nofun
  · exact hs.enterFault marked ⟨⟨_, rfl, unknown⟩, rfl⟩ fun w hw => Option.some.inj hw

/-! #### Under every step and every sequence of transactions -/

theorem ExecEnds.cfg (ends : ExecEnds s i t) : t.cfg = s.cfg := by
  cases ends with
  | completes done =>
    obtain ⟨-, -, hcfg, -⟩ := done.keeps
    exact hcfg
  | blocks x => rfl
  | faults kind addr own => rfl

/-- A step keeps the invariant and the configuration, whatever runs the instruction, if that ends as instructions
do. -/
theorem stepBy_keeps_inv {run : Instr → State → Result} (hrun : ∀ i s t, run i s = .next t → ExecEnds s i t)
    (hs : s.Inv) (h : stepBy run s = .next t) : t.Inv ∧ t.cfg = s.cfg := by
  rcases stepBy_cases run s with ⟨-, e⟩ | ⟨i, running, fetched, e⟩ | ⟨kind, word, addr, -, fetched, e⟩
  · obtain rfl := Host.Outcome.next.inj (e.symm.trans h)
    exact ⟨hs, rfl⟩
  · have ends := hrun i s.markStep t (e.symm.trans h)
    exact ⟨hs.markStep.execEnds rfl running fetched ends, ends.cfg⟩
  · obtain rfl := Host.Outcome.next.inj (e.symm.trans h)
    exact ⟨hs.markStep.fetchFault rfl fetched, rfl⟩

/-- Settles O18: whichever way the fetched instruction ends, or the fetch faults, the invariant is kept. -/
theorem everyStepKeepsTheInvariant : Obligations.EveryStepKeepsTheInvariant := by
  unfold Obligations.EveryStepKeepsTheInvariant
  exact fun s t hs h => (stepBy_keeps_inv (fun _ _ _ => execEnds_of_exec) hs h).1

theorem loadFont_keeps_inv (hs : s.Inv) (h : loadFont s = .next t) : t.Inv ∧ t.cfg = s.cfg := by
  cases fresh : s.stepTaken with
  | true => rw [loadFont_of_started fresh] at h; cases h
  | false =>
    rw [loadFont_of_fresh fresh hs.configWf] at h
    cases h
    have below : s.cfg.fontBase + 80 ≤ 0x200 := hs.configWf
    refine ⟨hs.setMem fresh (Memory.wf_writeBytes _ hs.memCanonical ?_), rfl⟩
    rw [fontBytes_length]
    show _ ≤ 4096
    omega

theorem loadRom_keeps_inv {rom : List Byte} (hs : s.Inv) (h : loadRom rom s = .next t) : t.Inv ∧ t.cfg = s.cfg := by
  cases fresh : s.stepTaken with
  | true => rw [loadRom_of_started rom fresh] at h; cases h
  | false =>
    by_cases fits : romFits rom
    · rw [loadRom_of_fits fresh fits] at h
      cases h
      have len : rom.length ≤ 3584 := fits
      exact ⟨hs.setMem fresh (Memory.wf_writeBytes _ hs.memCanonical (show 0x200 + rom.length ≤ 4096 by omega)), rfl⟩
    · rw [loadRom_of_large fresh fits] at h
      cases h

theorem answerStep_next {o : Result} {r : Response} (h : answerStep o = .next (r, t)) : o = .next t := by
  cases o <;> cases h
  rfl

theorem answering_next {o : Result} {q r : Response} (h : answering q o = .next (r, t)) : o = .next t := by
  cases o <;> cases h
  rfl

/-- `load_rom` leaves the state with the ROM loaded, or the state as it was. -/
theorem answerLoadRom_next {o : Result} {r : Response} (h : answerLoadRom s o = .next (r, t)) :
    o = .next t ∨ t = s := by
  cases o with
  | next u => cases h; exact .inl rfl
  | fault f => cases f; cases h; exact .inr rfl
  | refused f => cases h

theorem transact_keeps_inv {x : Transaction} {r : Response} (hs : s.Inv) (h : transact x s = .next (r, t)) :
    t.Inv ∧ t.cfg = s.cfg := by
  cases x with
  | reset => cases h; exact ⟨initial_inv hs.configWf s.draws, rfl⟩
  | loadFont => exact loadFont_keeps_inv hs (answering_next h)
  | loadRom rom =>
    rcases answerLoadRom_next h with h | rfl
    · exact loadRom_keeps_inv hs h
    · exact ⟨hs, rfl⟩
  | step rand => exact stepBy_keeps_inv (fun _ _ _ => execEnds_of_execGiven) hs (answerStep_next h)
  | tick => cases h; exact ⟨hs.withInputs .., rfl⟩
  | setKeys k => cases h; exact ⟨hs.withInputs s.dt s.st k, rfl⟩
  | readDisplay => cases h; exact ⟨hs, rfl⟩
  | readSoundTimer => cases h; exact ⟨hs, rfl⟩

/-- Settles O19, by induction on the sequence: each transaction keeps both. -/
theorem everyInterleavingKeepsTheInvariant : Obligations.EveryInterleavingKeepsTheInvariant := by
  unfold Obligations.EveryInterleavingKeepsTheInvariant
  intro ts s t hs h
  refine transactAll_induct (P := fun u => u.Inv ∧ u.cfg = s.cfg) ?_ ⟨hs, rfl⟩ h
  rintro x - u r v ⟨hu, hcfg⟩ e
  obtain ⟨hv, hcfg'⟩ := transact_keeps_inv hu e
  exact ⟨hv, hcfg'.trans hcfg⟩

end Sys2Proof.Machine
end

section
/-! ### What no instruction reads -/

namespace Sys2Proof.Machine

variable {i : Instr} {s s' t : State}

/-- The outcome with `f` applied to the state it leaves. -/
def mapNext (f : State → State) (o : Result) : Result :=
  match o with
  | .next t => .next (f t)
  | .fault r => .fault r
  | .refused r => .refused r

/-- The state with another sound timer and other stack entries. -/
def State.withHidden (v : Byte) (q : Vector Word 16) (s : State) : State := { s with st := v, stack := q }

/-- The stack `q` has the live entries of `s`: those below `SP`. -/
def SameLive (q : Vector Word 16) (s : State) : Prop := ∀ k : Fin 16, k.val < s.sp.val → q[k] = s.stack[k]

theorem checkRange_withHidden (i : Instr) (count : Nat) (v : Byte) (q : Vector Word 16) (s : State) (ok : Result) :
    checkRange i count (s.withHidden v q) (mapNext (State.withHidden v q) ok) =
      mapNext (State.withHidden v q) (checkRange i count s ok) := by
  unfold checkRange
  rw [apply_ite (mapNext (State.withHidden v q))]
  rfl

theorem checkStore_withHidden (i : Instr) (count : Nat) (v : Byte) (q : Vector Word 16) (s : State) (ok : Result) :
    checkStore i count (s.withHidden v q) (mapNext (State.withHidden v q) ok) =
      mapNext (State.withHidden v q) (checkStore i count s ok) := by
  unfold checkStore
  rw [← checkRange_withHidden, apply_ite (mapNext (State.withHidden v q))]
  rfl

theorem setIndexChecked_withHidden (i : Instr) (n : Nat) (v : Byte) (q : Vector Word 16) (s : State) :
    setIndexChecked i n (s.withHidden v q) = mapNext (State.withHidden v q) (setIndexChecked i n s) := by
  unfold setIndexChecked
  rw [apply_ite (mapNext (State.withHidden v q))]
  rfl

theorem skipOnKey_withHidden (i : Instr) (x : RegIdx) (want : Bool) (v : Byte) (q : Vector Word 16) (s : State) :
    skipOnKey i x want (s.withHidden v q) = mapNext (State.withHidden v q) (skipOnKey i x want s) := by
  unfold skipOnKey
  rw [show (s.withHidden v q).keyPressed ((s.withHidden v q).reg x) = s.keyPressed (s.reg x) from rfl]
  split <;> rfl

theorem execWaitKey_withHidden (x : RegIdx) (v : Byte) (q : Vector Word 16) (s : State) :
    execWaitKey x (s.withHidden v q) = mapNext (State.withHidden v q) (execWaitKey x s) := by
  unfold execWaitKey
  rw [show (s.withHidden v q).leastKey = s.leastKey from rfl]
  split <;> rfl

theorem execRet_of_pos (h : 0 < s.sp.val) :
    exec .ret s =
      .next (({ s with sp := ⟨s.sp.val - 1, by omega⟩ } : State).complete (s.stack[s.sp.val - 1]'(by omega) + 2)) := by
  simp only [exec, execRet, pop_of_pos h, goto_eq]

theorem execRet_of_zero (h : s.sp.val = 0) :
    exec .ret s = .next (s.enterFault .stackUnderflow (some (encode .ret)) none) := by
  simp only [exec, execRet, pop_of_zero h, raiseOwn_eq]

theorem execCall_of_lt (nnn : Addr) (h : s.sp.val < 16) :
    exec (.call nnn) s =
      .next (({ s with stack := s.stack.set s.sp.val s.pc, sp := ⟨s.sp.val + 1, by omega⟩ } : State).complete
        (zextAddr nnn)) := by
  simp only [exec, execCall, push_of_lt _ h, goto_eq]

theorem execCall_of_full (nnn : Addr) (h : s.sp.val = 16) :
    exec (.call nnn) s = .next (s.enterFault .stackOverflow (some (encode (.call nnn))) none) := by
  simp only [exec, execCall, push_of_full _ h, raiseOwn_eq]

/-- A return reads the top entry of the stack, which is live. -/
theorem execRet_withHidden (v : Byte) {q : Vector Word 16} (live : SameLive q s) :
    exec .ret (s.withHidden v q) = mapNext (State.withHidden v q) (exec .ret s) := by
  by_cases h : 0 < s.sp.val
  · have top : q[s.sp.val - 1] = s.stack[s.sp.val - 1] :=
      live ⟨s.sp.val - 1, by omega⟩ (show s.sp.val - 1 < s.sp.val by omega)
    rw [execRet_of_pos h, execRet_of_pos (s := s.withHidden v q) h]
    show Host.Outcome.next (State.complete _ (q[s.sp.val - 1] + 2)) = _
    rw [top]
    rfl
  · have h0 : s.sp.val = 0 := by omega
    rw [execRet_of_zero h0, execRet_of_zero (s := s.withHidden v q) h0]
    rfl

/-- An instruction that writes neither the sound timer nor an entry of the stack reads neither the sound timer nor a
dead entry. -/
theorem exec_withHidden (hc : ∀ nnn, i ≠ .call nnn) (hs : ∀ x, i ≠ .setSt x) (v : Byte) {q : Vector Word 16}
    (live : SameLive q s) : exec i (s.withHidden v q) = mapNext (State.withHidden v q) (exec i s) := by
  cases i with
  | call nnn => exact absurd rfl (hc nnn)
  | setSt x => exact absurd rfl (hs x)
  | ret => exact execRet_withHidden v live
  | drw x y n => exact checkRange_withHidden (.drw x y n) n.val v q s (drawSprite x y n.val s)
  | loadRegs x => exact checkRange_withHidden (.loadRegs x) (x.val + 1) v q s (s.setRegs (s.loadedRegs x)).advance
  | bcd x => exact checkStore_withHidden (.bcd x) 3 v q s (storeAtIndex (decimalDigits (s.reg x)) s)
  | storeRegs x => exact checkStore_withHidden (.storeRegs x) (x.val + 1) v q s (storeAtIndex (s.lowRegs x) s)
  | addIndex x => exact setIndexChecked_withHidden (.addIndex x) (s.at (s.reg x).toNat) v q s
  | ldGlyph x => exact setIndexChecked_withHidden (.ldGlyph x) (glyphAddr s.cfg (s.reg x)) v q s
  | skp x => exact skipOnKey_withHidden (.skp x) x true v q s
  | sknp x => exact skipOnKey_withHidden (.sknp x) x false v q s
  | waitKey x => exact execWaitKey_withHidden x v q s
  | _ => rfl

/-! #### The sound timer -/

theorem execCall_withSound (nnn : Addr) (v : Byte) (h : exec (.call nnn) s = .next t) :
    exec (.call nnn) { s with st := v } = .next { t with st := v } := by
  by_cases hsp : s.sp.val < 16
  · rw [execCall_of_lt nnn hsp] at h
    cases h
    exact execCall_of_lt (s := { s with st := v }) nnn hsp
  · have full : s.sp.val = 16 := by omega
    rw [execCall_of_full nnn full] at h
    cases h
    exact execCall_of_full (s := { s with st := v }) nnn full

/-- Settles O59: of a call said by itself, of every other instruction by the hidden value; `Fx18` overwrites it. -/
theorem theSoundTimerIsReadByNoInstruction : Obligations.TheSoundTimerIsReadByNoInstruction := by
  unfold Obligations.TheSoundTimerIsReadByNoInstruction
  refine ⟨fun i s t v hs h => ?_, fun x s v => rfl⟩
  by_cases hc : ∃ nnn, i = .call nnn
  · obtain ⟨nnn, rfl⟩ := hc
    exact execCall_withSound nnn v h
  · have hc' : ∀ nnn, i ≠ .call nnn := fun nnn e => hc ⟨nnn, e⟩
    have keep : t.withHidden v s.stack = { t with st := v } := by
      rw [← (exec_stack_of_ne h hc').1]
      rfl
    calc exec i { s with st := v }
      _ = mapNext (State.withHidden v s.stack) (exec i s) := exec_withHidden hc' hs v fun _ _ => rfl
      _ = .next (t.withHidden v s.stack) := by rw [h]; rfl
      _ = .next { t with st := v } := by rw [keep]

/-! #### Dead stack entries -/

/-- Machines that differ only in dead entries: one is the other with a stack that agrees on the live ones. -/
theorem sameButDeadStack_iff : SameButDeadStack s s' ↔ ∃ q, s' = { s with stack := q } ∧ SameLive q s :=
  ⟨fun ⟨e, live⟩ => ⟨s'.stack, e, live⟩, fun ⟨_, e, live⟩ => by subst e; exact ⟨rfl, live⟩⟩

/-- The entry a call pushes is the same in both stacks. -/
theorem SameLive.push {q : Vector Word 16} (live : SameLive q s) (h : s.sp.val < 16) (k : Fin 16)
    (hk : k.val < s.sp.val + 1) : (q.set s.sp.val s.pc)[k] = (s.stack.set s.sp.val s.pc)[k] := by
  simp only [Fin.getElem_fin, Vector.getElem_set]
  split
  · rfl
  · exact live k (by omega)

theorem execCall_sameButDeadStack (nnn : Addr) {q : Vector Word 16} (live : SameLive q s)
    (h : exec (.call nnn) s = .next t) :
    ∃ t', exec (.call nnn) { s with stack := q } = .next t' ∧ SameButDeadStack t t' := by
  by_cases hsp : s.sp.val < 16
  · rw [execCall_of_lt nnn hsp] at h
    cases h
    exact ⟨_, execCall_of_lt (s := { s with stack := q }) nnn hsp, rfl, live.push hsp⟩
  · have full : s.sp.val = 16 := by omega
    rw [execCall_of_full nnn full] at h
    cases h
    exact ⟨_, execCall_of_full (s := { s with stack := q }) nnn full, rfl, live⟩

/-- Only a call makes an entry live. -/
theorem exec_sp_le (h : exec i s = .next t) (hc : ∀ nnn, i ≠ .call nnn) : t.sp.val ≤ s.sp.val := by
  by_cases hr : i = .ret
  · subst hr
    rcases execRet_cases s with ⟨_, e⟩ | ⟨_, e⟩ <;> obtain rfl := Host.Outcome.next.inj (e.symm.trans h)
    · exact Nat.sub_le _ _
    · exact le_rfl
  · rw [(exec_stack_of_ne h hc).2 hr]

/-- No instruction tells two machines apart that differ only in dead entries. -/
theorem exec_sameButDeadStack (same : SameButDeadStack s s') (h : exec i s = .next t) :
    ∃ t', exec i s' = .next t' ∧ SameButDeadStack t t' := by
  obtain ⟨q, rfl, live⟩ := sameButDeadStack_iff.1 same
  by_cases hc : ∃ nnn, i = .call nnn
  · obtain ⟨nnn, rfl⟩ := hc
    exact execCall_sameButDeadStack nnn live h
  by_cases hs : ∃ x, i = .setSt x
  · obtain ⟨x, rfl⟩ := hs
    cases h
    exact ⟨_, rfl, rfl, live⟩
  have hc' : ∀ nnn, i ≠ .call nnn := fun nnn e => hc ⟨nnn, e⟩
  have hs' : ∀ x, i ≠ .setSt x := fun x e => hs ⟨x, e⟩
  have hidden := exec_withHidden hc' hs' s.st live
  rw [h] at hidden
  refine ⟨_, hidden, ?_, fun k hk => ?_⟩
  · rw [State.withHidden, ← exec_st_of_ne h hs']
  · rw [(exec_stack_of_ne h hc').1]
    exact live k (hk.trans_le (exec_sp_le h hc'))

/-- The same of a step that is given its byte: `Cxkk` does not touch the stack. -/
theorem execGiven_sameButDeadStack {rand : Byte} (same : SameButDeadStack s s') (h : execGiven rand i s = .next t) :
    ∃ t', execGiven rand i s' = .next t' ∧ SameButDeadStack t t' := by
  by_cases hi : ∃ x kk, i = .rnd x kk
  · obtain ⟨x, kk, rfl⟩ := hi
    obtain ⟨q, rfl, live⟩ := sameButDeadStack_iff.1 same
    cases h
    exact ⟨_, rfl, rfl, live⟩
  · have hne : ∀ x kk, i ≠ .rnd x kk := fun x kk e => hi ⟨x, kk, e⟩
    rw [execGiven_of_ne hne] at h ⊢
    exact exec_sameButDeadStack same h

/-- No step does, whatever runs the instruction: both machines fetch the same. -/
theorem stepBy_sameButDeadStack {run : Instr → State → Result}
    (hrun : ∀ i s s' t, SameButDeadStack s s' → run i s = .next t → ∃ t', run i s' = .next t' ∧ SameButDeadStack t t')
    (same : SameButDeadStack s s') (h : stepBy run s = .next t) :
    ∃ t', stepBy run s' = .next t' ∧ SameButDeadStack t t' := by
  obtain ⟨q, rfl, live⟩ := sameButDeadStack_iff.1 same
  rcases stepBy_cases run s with ⟨faulted, e⟩ | ⟨i, running, fetched, e⟩ | ⟨kind, word, addr, running, fetched, e⟩
  · obtain rfl := Host.Outcome.next.inj (e.symm.trans h)
    exact ⟨_, stepBy_of_fault run faulted, rfl, live⟩
  · rw [stepBy_of_instr run (s := { s with stack := q }) running fetched]
    exact hrun i s.markStep _ t ⟨rfl, live⟩ (e.symm.trans h)
  · obtain rfl := Host.Outcome.next.inj (e.symm.trans h)
    exact ⟨_, stepBy_of_fetchFault run (s := { s with stack := q }) running fetched, rfl, live⟩

/-- Settles O41, for the free byte and for every given one. -/
theorem deadStackEntriesAreUnobservable : Obligations.DeadStackEntriesAreUnobservable := by
  unfold Obligations.DeadStackEntriesAreUnobservable
  intro s s' t same
  exact ⟨stepBy_sameButDeadStack (fun _ _ _ _ => exec_sameButDeadStack) same,
    fun rand => stepBy_sameButDeadStack (fun _ _ _ _ => execGiven_sameButDeadStack) same⟩

end Sys2Proof.Machine
end

section
/-! ### Reset values, reads and key updates -/

namespace Sys2Proof.Machine

/-- Settles O16: the first state and the one after the transaction have the same table of values. -/
theorem resetLeavesTheResetValues : Obligations.ResetLeavesTheResetValues := by
  unfold Obligations.ResetLeavesTheResetValues
  intro s t h
  obtain ⟨c, n, rfl⟩ : ∃ c n, t = { State.initial c with draws := n } := by
    rcases h with rfl | h
    · exact ⟨Config.standard, 0, rfl⟩
    · cases h
      exact ⟨s.cfg, s.draws, rfl⟩
  exact ⟨fun k => Vector.getElem_replicate k.isLt, rfl, rfl, fun k => Vector.getElem_replicate k.isLt, rfl, rfl, rfl,
    fun k => Vector.getElem_replicate k.isLt, Display.pixel_clear, fun a _ => Memory.read_nil a, rfl, rfl⟩

/-- Settles O28: the two reads answer a field of the state, and `setKeys` is the state after the update. -/
theorem hostReadsAndKeyUpdatesChangeNothingElse : Obligations.HostReadsAndKeyUpdatesChangeNothingElse := by
  unfold Obligations.HostReadsAndKeyUpdatesChangeNothingElse
  exact fun s k => ⟨rfl, rfl, setKeys k s, rfl, fun _ => rfl, rfl⟩

end Sys2Proof.Machine
end

section
/-! ### Memories and their bytes -/

namespace Sys2Proof.Machine

/-- Consecutive writes store byte `k` at the address `a + k`. -/
theorem Memory.read_writeBytes_getElem {bytes : List Byte} {m : Memory} (hm : Memory.wf m) {a : Nat}
    (ha : a + bytes.length ≤ Config.memSize) {k : Nat} (hk : k < bytes.length) :
    Memory.read (Memory.writeBytes m a bytes) (a + k) = bytes[k] := by
  rw [Memory.read_writeBytes bytes hm ha, dif_pos (by omega)]
  simp

/-- Consecutive writes leave every byte outside of theirs. -/
theorem Memory.read_writeBytes_outside {bytes : List Byte} {m : Memory} (hm : Memory.wf m) {a : Nat}
    (ha : a + bytes.length ≤ Config.memSize) {b : Nat} (hb : b < a ∨ a + bytes.length ≤ b) :
    Memory.read (Memory.writeBytes m a bytes) b = Memory.read m b := by
  rw [Memory.read_writeBytes bytes hm ha, dif_neg (by omega)]

/-- The first listed byte of a canonical memory tells it from every memory that lists higher addresses only. -/
theorem Memory.read_head_ne {b : Nat} {v : Byte} {m m' : Memory} (hm : Memory.wf ((b, v) :: m))
    (below : ∀ c ∈ m', b < c.1) : Memory.read ((b, v) :: m) b ≠ Memory.read m' b := by
  obtain ⟨-, ⟨-, hv⟩, -⟩ := (Memory.wf_cons b v m).1 hm
  rwa [Memory.read_cons, if_pos rfl, Memory.read_below below]

/-- The entries after the first read as the whole does, but at the address of the first. -/
theorem Memory.read_tail {b : Nat} {v : Byte} {m : Memory} (hm : Memory.wf ((b, v) :: m)) (a : Nat) :
    Memory.read m a = if a = b then Memory.unlisted else Memory.read ((b, v) :: m) a := by
  obtain ⟨hlt, -, -⟩ := (Memory.wf_cons b v m).1 hm
  split
  · next e => exact Memory.read_below (e ▸ hlt)
  · next ne => rw [Memory.read_cons, if_neg ne]

/-- Of two memories that read the same, neither lists a byte below the first entry of the other. -/
theorem Memory.head_le {b d : Nat} {u v : Byte} {m m' : Memory} (hm : Memory.wf ((b, u) :: m))
    (hm' : Memory.wf ((d, v) :: m')) (same : ∀ a, Memory.read ((b, u) :: m) a = Memory.read ((d, v) :: m') a) :
    d ≤ b := by
  obtain ⟨hlt, -, -⟩ := (Memory.wf_cons d v m').1 hm'
  by_contra hbd
  refine Memory.read_head_ne hm (m' := (d, v) :: m') (fun c hc => ?_) (same b)
  rcases List.mem_cons.1 hc with rfl | hc
  · exact Nat.lt_of_not_le hbd
  · exact (Nat.lt_of_not_le hbd).trans (hlt c hc)

/-- Settles O55, by induction on the entries: the two first entries are one, and the rests read the same. -/
theorem memoriesWithEqualBytesAreEqual : Obligations.MemoriesWithEqualBytesAreEqual := by
  unfold Obligations.MemoriesWithEqualBytesAreEqual
  intro m
  induction m with
  | nil =>
    intro m' _ hm' same
    cases m' with
    | nil => rfl
    | cons c m' => exact absurd (same c.1).symm (Memory.read_head_ne hm' nofun)
  | cons c m ih =>
    intro m' hm hm' same
    cases m' with
    | nil => exact absurd (same c.1) (Memory.read_head_ne hm nofun)
    | cons d m' =>
      obtain ⟨b, u⟩ := c
      obtain ⟨d, v⟩ := d
      obtain rfl : b = d :=
        Nat.le_antisymm (Memory.head_le hm' hm fun a => (same a).symm) (Memory.head_le hm hm' same)
      obtain rfl : u = v := by simpa [Memory.read_cons] using same b
      obtain ⟨-, -, rest⟩ := (Memory.wf_cons b u m).1 hm
      obtain ⟨-, -, rest'⟩ := (Memory.wf_cons b u m').1 hm'
      rw [ih m' rest rest' fun a => by rw [Memory.read_tail hm, Memory.read_tail hm', same a]]

end Sys2Proof.Machine
end

section
/-! ### The protected font -/

namespace Sys2Proof.Machine

variable {i : Instr} {s t : State}

/-- `t` holds in the font region of `s` the bytes that `s` holds there. -/
def KeepsFont (s t : State) : Prop :=
  ∀ a, s.cfg.fontBase ≤ a → a < s.cfg.fontBase + Config.fontSize → Memory.read t.mem a = Memory.read s.mem a

theorem KeepsFont.of_mem (h : t.mem = s.mem) : KeepsFont s t := fun a _ _ => by rw [h]

theorem State.fontLoaded.keep (loaded : s.fontLoaded) (cfg : t.cfg = s.cfg) (keeps : KeepsFont s t) :
    t.fontLoaded := by
  intro d k
  rw [cfg, keeps _ (by omega) (show _ < s.cfg.fontBase + 80 by omega)]
  exact loaded d k

/-- A checked store keeps the protected font: it faults, or it writes outside of it (20_memory.md rule R59). -/
theorem checkStore_keepsFont {bytes : List Byte} {count : Nat} (len : bytes.length = count + 1)
    (hm : Memory.wf s.mem) (protect : s.cfg.fontWriteProtect = true)
    (h : checkStore i (count + 1) s (storeAtIndex bytes s) = .next t) : KeepsFont s t := by
  rcases checkStore_cases i (count + 1) s (storeAtIndex bytes s) with ⟨-, e⟩ | ⟨-, -, -, e⟩ | ⟨range, safe, e⟩
  · obtain rfl := Host.Outcome.next.inj (e.symm.trans h)
    exact .of_mem rfl
  · obtain rfl := Host.Outcome.next.inj (e.symm.trans h)
    exact .of_mem rfl
  · obtain rfl := Host.Outcome.next.inj (e.symm.trans h)
    have apart := (touchesFont_iff s (count + 1)).not.1 (by simpa [protect] using safe)
    intro a low (high : a < s.cfg.fontBase + 80)
    exact Memory.read_writeBytes_outside hm (len ▸ inRange_of_not_leavesMemory range) (by omega)

/-- Every instruction keeps the protected font: only the two stores write memory, and both are checked. -/
theorem exec_keepsFont (hm : Memory.wf s.mem) (protect : s.cfg.fontWriteProtect = true) (h : exec i s = .next t) :
    KeepsFont s t := by
  by_cases hmem : t.mem = s.mem
  · exact .of_mem hmem
  · obtain ⟨-, -, -, -, -, -, mem, -⟩ := eachPieceIsWrittenOnlyByItsInstructions i s t h
    obtain ⟨x, rfl | rfl⟩ := mem hmem
    · exact checkStore_keepsFont (decimalDigits_length _) hm protect h
    · exact checkStore_keepsFont (lowRegs_length s x) hm protect h

theorem execGiven_keepsFont {rand : Byte} (hm : Memory.wf s.mem) (protect : s.cfg.fontWriteProtect = true)
    (h : execGiven rand i s = .next t) : KeepsFont s t := by
  by_cases hi : ∃ x kk, i = .rnd x kk
  · obtain ⟨x, kk, rfl⟩ := hi
    cases h
    exact .of_mem rfl
  · rw [execGiven_of_ne fun x kk e => hi ⟨x, kk, e⟩] at h
    exact exec_keepsFont hm protect h

theorem stepGiven_keepsFont {rand : Byte} (hm : Memory.wf s.mem) (protect : s.cfg.fontWriteProtect = true)
    (h : stepGiven rand s = .next t) : KeepsFont s t := by
  rcases stepGiven_cases rand s with ⟨-, e⟩ | ⟨i, -, -, e⟩ | ⟨kind, word, addr, -, -, e⟩
  · obtain rfl := Host.Outcome.next.inj (e.symm.trans h)
    exact .of_mem rfl
  · exact execGiven_keepsFont (s := s.markStep) hm protect (e.symm.trans h)
  · obtain rfl := Host.Outcome.next.inj (e.symm.trans h)
    exact .of_mem rfl

/-- `load_font` puts the font where it belongs, whatever stood there. -/
theorem loadFont_fontLoaded (hs : s.Inv) (h : loadFont s = .next t) : t.fontLoaded := by
  cases fresh : s.stepTaken with
  | true => rw [loadFont_of_started fresh] at h; cases h
  | false =>
    rw [loadFont_of_fresh fresh hs.configWf] at h
    cases h
    intro d k
    have below : s.cfg.fontBase + 80 ≤ 0x200 := hs.configWf
    have inMemory : s.cfg.fontBase + (fontBytes s.cfg).length ≤ Config.memSize := by
      rw [fontBytes_length]
      show _ ≤ 4096
      omega
    have glyph := fontBytes_getElem? s.cfg d k
    obtain ⟨inFont, byte⟩ := List.getElem?_eq_some_iff.1 glyph
    rw [Nat.add_assoc]
    exact (Memory.read_writeBytes_getElem hs.memCanonical inMemory inFont).trans byte

/-- `load_rom` writes from `0x200` on, above the font (20_memory.md rule R57). -/
theorem loadRom_keepsFont {rom : List Byte} (hs : s.Inv) (h : loadRom rom s = .next t) : KeepsFont s t := by
  cases fresh : s.stepTaken with
  | true => rw [loadRom_of_started rom fresh] at h; cases h
  | false =>
    by_cases fits : romFits rom
    · rw [loadRom_of_fits fresh fits] at h
      cases h
      have len : rom.length ≤ 3584 := fits
      have below : s.cfg.fontBase + Config.fontSize ≤ Config.romBase := hs.configWf
      exact fun a _ high => Memory.read_writeBytes_outside hs.memCanonical (show 0x200 + rom.length ≤ 4096 by omega)
        (.inl (high.trans_le below))
    · rw [loadRom_of_large fresh fits] at h
      cases h

/-- Every transaction but `reset` leaves a loaded and protected font loaded. -/
theorem transact_fontLoaded {x : Transaction} {r : Response} (hs : s.Inv) (protect : s.cfg.fontWriteProtect = true)
    (loaded : s.fontLoaded) (hx : x ≠ .reset) (h : transact x s = .next (r, t)) : t.fontLoaded := by
  obtain ⟨-, cfg⟩ := transact_keeps_inv hs h
  cases x with
  | reset => exact absurd rfl hx
  | loadFont => exact loadFont_fontLoaded hs (answering_next h)
  | loadRom rom =>
    rcases answerLoadRom_next h with h | rfl
    · exact loaded.keep cfg (loadRom_keepsFont hs h)
    · exact loaded
  | step rand => exact loaded.keep cfg (stepGiven_keepsFont hs.memCanonical protect (answerStep_next h))
  | tick | setKeys | readDisplay | readSoundTimer => cases h; exact loaded

/-- Settles O20, by induction on the sequence: with the invariant and the configuration, each transaction keeps the
font. -/
theorem theLoadedFontSurvivesEveryInterleaving : Obligations.TheLoadedFontSurvivesEveryInterleaving := by
  unfold Obligations.TheLoadedFontSurvivesEveryInterleaving
  intro ts s t hs protect loaded noReset h
  have keep : ∀ x ∈ ts, ∀ u r v, u.Inv ∧ u.cfg = s.cfg ∧ u.fontLoaded → transact x u = .next (r, v) →
      v.Inv ∧ v.cfg = s.cfg ∧ v.fontLoaded := by
    rintro x hx u r v ⟨hu, hcfg, hloaded⟩ e
    obtain ⟨hv, hcfg'⟩ := transact_keeps_inv hu e
    have hne : x ≠ .reset := fun hr => noReset (hr ▸ hx)
    exact ⟨hv, hcfg'.trans hcfg, transact_fontLoaded hu (hcfg ▸ protect) hloaded hne e⟩
  obtain ⟨-, -, after⟩ := transactAll_induct keep ⟨hs, rfl, loaded⟩ h
  exact after

end Sys2Proof.Machine
end

section
/-! ### Stored code is fetched by the next step -/

namespace Sys2Proof.Machine

variable {i : Instr} {s t : State}

theorem State.markStep_of_started (h : s.stepTaken = true) : s.markStep = s := by
  cases s
  cases h
  rfl

/-- A step that is not the first runs the fetched instruction from the state itself. -/
theorem stepBy_of_started (run : Instr → State → Result) (started : s.stepTaken = true) (running : s.fault = none)
    (fetched : s.fetch = .instr i) : stepBy run s = run i s := by
  rw [stepBy_of_instr run running fetched, State.markStep_of_started started]

/-- The converse of `fetch_instr`. -/
theorem fetch_of_decodeWord (hpc : s.pc.toNat ≤ 0xFFE) (aligned : (s.cfg.fetchAlignCheck && s.pc.getLsbD 0) = false)
    (decoded : decodeWord s.wordAtPc = some i) : s.fetch = .instr i := by
  rw [State.fetch, if_neg (by omega), if_neg (by rw [aligned]; exact Bool.false_ne_true), decoded]

theorem getLsbD_zero_add_two (pc : Word) : (pc + 2).getLsbD 0 = pc.getLsbD 0 := by
  simp only [BitVec.getLsbD, Nat.testBit_zero]
  rw [show (pc + 2).toNat % 2 = pc.toNat % 2 by bv_omega]

/-- An `Fx55` that completes has stored `V0`..`Vx` inside the address space. -/
theorem exec_storeRegs_of_stepped {x : RegIdx} (h : exec (.storeRegs x) s = .next t) (stepped : t.status = .stepped) :
    s.index.toNat + (x.val + 1) ≤ Config.memSize ∧
      t = (s.setMem (Memory.writeBytes s.mem s.index.toNat (s.lowRegs x))).complete (s.pc + 2) := by
  rcases execStoreRegs_cases x s with ⟨-, e⟩ | ⟨-, -, -, e⟩ | ⟨range, -, e⟩
  · obtain rfl := Host.Outcome.next.inj (e.symm.trans h)
    cases stepped
  · obtain rfl := Host.Outcome.next.inj (e.symm.trans h)
    cases stepped
  · exact ⟨inRange_of_not_leavesMemory range, (Host.Outcome.next.inj (e.symm.trans h)).symm⟩

/-- `Fx55` with `I` at the next word leaves `V0` and `V1` as the word at the `pc` that it leaves. -/
theorem wordAtPc_of_storeRegs {x : RegIdx} (hm : Memory.wf s.mem) (hx : 1 ≤ x.val)
    (inMemory : s.index.toNat + (x.val + 1) ≤ Config.memSize) (next : s.pc + 2 = s.index) :
    ((s.setMem (Memory.writeBytes s.mem s.index.toNat (s.lowRegs x))).complete (s.pc + 2)).wordAtPc =
      s.reg 0 ++ s.reg 1 := by
  rw [← lowRegs_length s x] at inMemory
  have high := Memory.read_writeBytes_getElem (k := 0) hm inMemory (by simp)
  have low := Memory.read_writeBytes_getElem (k := 1) hm inMemory (by simp; omega)
  rw [lowRegs_getElem] at high low
  rw [State.wordAtPc, State.complete_pc, next]
  exact congrArg₂ wordOfBytes high low

/-- The next step then fetches the instruction of that word: `pc + 2` is in range and has the parity of `pc`. -/
theorem fetch_of_storeRegs {x : RegIdx} {j : Instr} (hm : Memory.wf s.mem) (hx : 1 ≤ x.val)
    (inMemory : s.index.toNat + (x.val + 1) ≤ Config.memSize) (next : s.pc + 2 = s.index)
    (aligned : (s.cfg.fetchAlignCheck && s.pc.getLsbD 0) = false)
    (decoded : decodeWord (s.reg 0 ++ s.reg 1) = some j) :
    ((s.setMem (Memory.writeBytes s.mem s.index.toNat (s.lowRegs x))).complete (s.pc + 2)).fetch = .instr j := by
  refine fetch_of_decodeWord ?_ ?_ (by rwa [wordAtPc_of_storeRegs hm hx inMemory next])
  · have bound : s.index.toNat + (x.val + 1) ≤ 4096 := inMemory
    rw [State.complete_pc, next]
    omega
  · rw [State.complete_pc, getLsbD_zero_add_two]
    exact aligned

/-- Settles O54: the next fetch reads the two stored bytes. -/
theorem aStoreOverTheNextWordIsRunByTheNextStep : Obligations.AStoreOverTheNextWordIsRunByTheNextStep := by
  unfold Obligations.AStoreOverTheNextWordIsRunByTheNextStep
  intro x j s t hs running fetched hx hindex decoded h stepped
  obtain ⟨hpc, aligned, -⟩ := fetch_instr fetched
  rw [step_of_instr running fetched] at h
  obtain ⟨inMemory, rfl⟩ := exec_storeRegs_of_stepped h stepped
  have next : s.pc + 2 = s.index := by bv_omega
  have fetchedNext := fetch_of_storeRegs (s := s.markStep) hs.memCanonical hx inMemory next aligned decoded
  exact ⟨stepBy_of_started exec rfl running fetchedNext,
    fun rand => stepBy_of_started (execGiven rand) rfl running fetchedNext⟩

end Sys2Proof.Machine
end

section
/-! ### Every instruction decodes from its own word -/

namespace Sys2Proof.Machine

theorem decodeWord_encXyn_class8 (x y : RegIdx) (n : BitVec 4) :
    decodeWord (encXyn 0x8#4 x y n) = decodeClass8 x y n := by simp [decodeWord]

theorem decodeWord_encXkk_classE (x : RegIdx) (kk : Byte) :
    decodeWord (encXkk 0xE#4 x kk) = decodeClassE x kk := by simp [decodeWord]

theorem decodeWord_encXkk_classF (x : RegIdx) (kk : Byte) :
    decodeWord (encXkk 0xF#4 x kk) = decodeClassF x kk := by simp [decodeWord]

/-- The converse of `encode_of_decodeWord` (30_encoding.md rules R72, R75): a class with one instruction gives the
fields back, and the others go on to the sub-opcode. -/
theorem decodeWord_encode (i : Instr) : decodeWord (encode i) = some i := by
  cases i
  case cls | ret => decide
  case jp | call | ldIndex | jpV0 | seImm | sneImm | ldImm | addImm | rnd | seReg | sneReg => simp [encode, decodeWord]
  case drw => simp [encode, decodeWord, fieldN]
  case ldReg | orReg | andReg | xorReg | addReg | subReg | shr | subnReg | shl => exact decodeWord_encXyn_class8 ..
  case skp | sknp => exact decodeWord_encXkk_classE ..
  case ldFromDt | waitKey | setDt | setSt | addIndex | ldGlyph | bcd | storeRegs | loadRegs =>
    exact decodeWord_encXkk_classF ..

theorem decodeWord_eq_some_iff {w : Word} {i : Instr} : decodeWord w = some i ↔ encode i = w :=
  ⟨encode_of_decodeWord, fun h => h ▸ decodeWord_encode i⟩

/-- Settles O1, by the format of the instruction's class. -/
theorem encodedInstructionsDecodeToThemselves : Obligations.EncodedInstructionsDecodeToThemselves :=
  decodeWord_encode

/-- Settles O2. -/
theorem decodedWordsAreTheirInstructionsEncodings : Obligations.DecodedWordsAreTheirInstructionsEncodings :=
  fun _ _ => encode_of_decodeWord

/-- Settles O6: six fixed words, evaluated. -/
theorem wordsWrittenOutFromThePatternsDecode : Obligations.WordsWrittenOutFromThePatternsDecode := by
  unfold Obligations.WordsWrittenOutFromThePatternsDecode
  decide

end Sys2Proof.Machine
end

section
/-! ### The rows of the opcode table -/

namespace Sys2Proof.Machine

open Sys2Proof.Laws

variable {w : Word} {c : BitVec 4}

/-! Each mask keeps the fields of its pattern: the converses of the laws on `encode`. -/

theorem encAddr_of_mask (h : w &&& 0xF000#16 = encAddr c 0) : encAddr c (fieldNnn w) = w := by
  have hc : opClass w = c := by
    rw [← encAddr_fields w, encAddr_mask] at h
    simpa using congrArg opClass h
  rw [← hc, encAddr_fields]

theorem encXkk_of_mask (h : w &&& 0xF000#16 = encXkk c 0 0) : encXkk c (fieldX w) (fieldKk w) = w := by
  have hc : opClass w = c := by
    rw [← encXkk_fields w, encXkk_mask] at h
    simpa using congrArg opClass h
  rw [← hc, encXkk_fields]

theorem encXkk_of_maskLow {kk : Byte} (h : w &&& 0xF0FF#16 = encXkk c 0 kk) : encXkk c (fieldX w) kk = w := by
  rw [← encXkk_fields w, encXkk_maskLow] at h
  have hc : opClass w = c := by simpa using congrArg opClass h
  have hk : fieldKk w = kk := by simpa using congrArg fieldKk h
  rw [← hc, ← hk, encXkk_fields]

theorem encXyn_of_mask (h : w &&& 0xF000#16 = encXyn c 0 0 0) : encXyn c (fieldX w) (fieldY w) (nibble4 w) = w := by
  have hc : opClass w = c := by
    rw [← encXyn_fields w, encXyn_mask] at h
    simpa using congrArg opClass h
  rw [← hc, encXyn_fields]

theorem encXyn_of_maskLow {n : BitVec 4} (h : w &&& 0xF00F#16 = encXyn c 0 0 n) :
    encXyn c (fieldX w) (fieldY w) n = w := by
  rw [← encXyn_fields w, encXyn_maskLow] at h
  have hc : opClass w = c := by simpa using congrArg opClass h
  have hn : nibble4 w = n := by simpa using congrArg nibble4 h
  rw [← hc, ← hn, encXyn_fields]

theorem OpcodeRow.covers_iff {r : OpcodeRow} : r.covers w = true ↔ w &&& r.mask = r.pattern := beq_iff_eq

/-- The word of every instruction lies in the instruction's row (the laws of `TablePattern`, for every instruction). -/
theorem encode_mask_row (i : Instr) : encode i &&& i.row.mask = i.row.pattern := by
  cases i
  case cls | ret => rfl
  case jp | call | ldIndex | jpV0 => exact encAddr_mask ..
  case seImm | sneImm | ldImm | addImm | rnd => exact encXkk_mask ..
  case drw => exact encXyn_mask ..
  case seReg | sneReg | ldReg | orReg | andReg | xorReg | addReg | subReg | shr | subnReg | shl =>
    exact encXyn_maskLow ..
  case skp | sknp | ldFromDt | waitKey | setDt | setSt | addIndex | ldGlyph | bcd | storeRegs | loadRegs =>
    exact encXkk_maskLow ..

/-- A word that a row covers is the word of an instruction of that row, whose operands are the word's fields. -/
theorem exists_encode_of_covers {i : Instr} (h : i.row.covers w = true) : ∃ j, encode j = w ∧ j.row = i.row := by
  have h : w &&& i.row.mask = i.row.pattern := OpcodeRow.covers_iff.1 h
  cases i with
  | cls => exact ⟨.cls, by rw [← BitVec.and_allOnes (x := w)]; exact h.symm, rfl⟩
  | ret => exact ⟨.ret, by rw [← BitVec.and_allOnes (x := w)]; exact h.symm, rfl⟩
  | jp => exact ⟨.jp _, encAddr_of_mask h, rfl⟩
  | call => exact ⟨.call _, encAddr_of_mask h, rfl⟩
  | seImm => exact ⟨.seImm _ _, encXkk_of_mask h, rfl⟩
  | sneImm => exact ⟨.sneImm _ _, encXkk_of_mask h, rfl⟩
  | seReg => exact ⟨.seReg _ _, encXyn_of_maskLow h, rfl⟩
  | ldImm => exact ⟨.ldImm _ _, encXkk_of_mask h, rfl⟩
  | addImm => exact ⟨.addImm _ _, encXkk_of_mask h, rfl⟩
  | ldReg => exact ⟨.ldReg _ _, encXyn_of_maskLow h, rfl⟩
  | orReg => exact ⟨.orReg _ _, encXyn_of_maskLow h, rfl⟩
  | andReg => exact ⟨.andReg _ _, encXyn_of_maskLow h, rfl⟩
  | xorReg => exact ⟨.xorReg _ _, encXyn_of_maskLow h, rfl⟩
  | addReg => exact ⟨.addReg _ _, encXyn_of_maskLow h, rfl⟩
  | subReg => exact ⟨.subReg _ _, encXyn_of_maskLow h, rfl⟩
  | shr => exact ⟨.shr _ _, encXyn_of_maskLow h, rfl⟩
  | subnReg => exact ⟨.subnReg _ _, encXyn_of_maskLow h, rfl⟩
  | shl => exact ⟨.shl _ _, encXyn_of_maskLow h, rfl⟩
  | sneReg => exact ⟨.sneReg _ _, encXyn_of_maskLow h, rfl⟩
  | ldIndex => exact ⟨.ldIndex _, encAddr_of_mask h, rfl⟩
  | jpV0 => exact ⟨.jpV0 _, encAddr_of_mask h, rfl⟩
  | rnd => exact ⟨.rnd _ _, encXkk_of_mask h, rfl⟩
  | drw => exact ⟨.drw _ _ (fieldN w), encXyn_of_mask h, rfl⟩
  | skp => exact ⟨.skp _, encXkk_of_maskLow h, rfl⟩
  | sknp => exact ⟨.sknp _, encXkk_of_maskLow h, rfl⟩
  | ldFromDt => exact ⟨.ldFromDt _, encXkk_of_maskLow h, rfl⟩
  | waitKey => exact ⟨.waitKey _, encXkk_of_maskLow h, rfl⟩
  | setDt => exact ⟨.setDt _, encXkk_of_maskLow h, rfl⟩
  | setSt => exact ⟨.setSt _, encXkk_of_maskLow h, rfl⟩
  | addIndex => exact ⟨.addIndex _, encXkk_of_maskLow h, rfl⟩
  | ldGlyph => exact ⟨.ldGlyph _, encXkk_of_maskLow h, rfl⟩
  | bcd => exact ⟨.bcd _, encXkk_of_maskLow h, rfl⟩
  | storeRegs => exact ⟨.storeRegs _, encXkk_of_maskLow h, rfl⟩
  | loadRegs => exact ⟨.loadRegs _, encXkk_of_maskLow h, rfl⟩

/-- A row of the table covers exactly the words that decode to an instruction of that row. -/
theorem row_covers_iff (i : Instr) : i.row.covers w = true ↔ ∃ j, decodeWord w = some j ∧ j.row = i.row := by
  constructor
  · intro h
    obtain ⟨j, hw, hrow⟩ := exists_encode_of_covers h
    exact ⟨j, decodeWord_eq_some_iff.2 hw, hrow⟩
  · rintro ⟨j, hj, hrow⟩
    rw [← hrow, ← encode_of_decodeWord hj]
    exact OpcodeRow.covers_iff.2 (encode_mask_row j)

theorem opcodeRows_nodup : opcodeRows.Nodup := List.Nodup.of_map OpcodeRow.pattern (by decide)

theorem row_mem_opcodeRows (i : Instr) : i.row ∈ opcodeRows := by
  cases i <;> simp [opcodeRows, rowSamples, Instr.row]

/-- Settles O4: the covering rows are those equal to the decoded instruction's row, and the table lists no row twice. -/
theorem everyWordMatchesAtMostOneOpcodeRow : Obligations.EveryWordMatchesAtMostOneOpcodeRow := by
  unfold Obligations.EveryWordMatchesAtMostOneOpcodeRow
  intro w
  have covered : ∀ r ∈ opcodeRows, r.covers w = true ↔ ∃ j, decodeWord w = some j ∧ j.row = r := by
    intro r hr
    obtain ⟨i, -, rfl⟩ := List.mem_map.1 hr
    exact row_covers_iff i
  cases hd : decodeWord w with
  | none =>
    refine List.filter_eq_nil_iff.2 fun r hr => ?_
    rw [covered r hr, hd]
    simp
  | some j =>
    have byRow : ∀ r ∈ opcodeRows, r.covers w = (r == j.row) := by
      intro r hr
      rw [Bool.eq_iff_iff, covered r hr, hd, beq_iff_eq, eq_comm (a := r)]
      simp
    rw [List.filter_congr byRow, List.filter_beq, opcodeRows_nodup.count, if_pos (row_mem_opcodeRows j)]
    rfl

end Sys2Proof.Machine
end

section
/-! ### The words that are no instruction -/

namespace Sys2Proof.Machine

variable {w : Word}

theorem opClass_toNat (w : Word) : (opClass w).toNat = w.toNat / 4096 := by
  have := w.isLt
  simp only [opClass, BitVec.extractLsb'_toNat, Nat.shiftRight_eq_div_pow]
  omega

theorem nibble4_toNat (w : Word) : (nibble4 w).toNat = w.toNat % 16 := by
  simp [nibble4, BitVec.extractLsb'_toNat]

theorem fieldKk_toNat (w : Word) : (fieldKk w).toNat = w.toNat % 256 := by
  simp [fieldKk, BitVec.extractLsb'_toNat]

/-! The unrecognised sub-opcodes of each class (30_encoding.md rules R76 to R80). -/

theorem decodeClass0_eq_none_iff : decodeClass0 w = none ↔ w.toNat ≠ 0x00E0 ∧ w.toNat ≠ 0x00EE := by
  unfold decodeClass0
  split
  · next h => simp [h]
  · split
    · next h => simp [h]
    · next h0 h1 => simpa using ⟨fun e => h0 (BitVec.eq_of_toNat_eq e), fun e => h1 (BitVec.eq_of_toNat_eq e)⟩

theorem decodeClass8_eq_none_iff (x y : RegIdx) (n : BitVec 4) :
    decodeClass8 x y n = none ↔ n.toNat ∈ [0x8, 0x9, 0xA, 0xB, 0xC, 0xD, 0xF] := by
  obtain ⟨n⟩ := n
  fin_cases n <;> simp [decodeClass8]

theorem decodeClassE_eq_none_iff (x : RegIdx) (kk : Byte) :
    decodeClassE x kk = none ↔ kk.toNat ∉ [0x9E, 0xA1] := by
  unfold decodeClassE
  split
  case h_3 => simp_all [← BitVec.toNat_inj]
  all_goals simp

theorem decodeClassF_eq_none_iff (x : RegIdx) (kk : Byte) :
    decodeClassF x kk = none ↔ kk.toNat ∉ [0x07, 0x0A, 0x15, 0x18, 0x1E, 0x29, 0x33, 0x55, 0x65] := by
  unfold decodeClassF
  split
  case h_10 => simp_all [← BitVec.toNat_inj]
  all_goals simp

/-- The decoder's gaps are the words that rules R76 to R80 leave out, class by class. -/
theorem decodeWord_eq_none_iff : decodeWord w = none ↔ Unrecognised w := by
  have cls := opClass_toNat w
  unfold decodeWord Unrecognised
  rw [← nibble4_toNat, ← fieldKk_toNat, ← cls]
  split
  case h_1 hc => simp [hc, decodeClass0_eq_none_iff]
  case h_9 hc => simp [hc, decodeClass8_eq_none_iff]
  case h_15 hc => simp [hc, decodeClassE_eq_none_iff]
  case h_16 hc => simp [hc, decodeClassF_eq_none_iff]
  case h_6 hc | h_10 hc => simp [hc, ← BitVec.toNat_inj]
  case h_17 =>
    simp only [← BitVec.toNat_inj, BitVec.toNat_ofNat, imp_false] at *
    omega
  all_goals next hc => simp [hc]

end Sys2Proof.Machine
end

section
/-! ### The step on the fetched word (30_encoding.md rule R70) -/

namespace Sys2Proof.Machine

variable {s : State}

/-- A `pc` that the alignment check lets through (20_memory.md rule R53). -/
theorem aligned_of_even (h : s.cfg.fetchAlignCheck = true → s.pc.toNat % 2 = 0) :
    (s.cfg.fetchAlignCheck && s.pc.getLsbD 0) = false := by
  cases hc : s.cfg.fetchAlignCheck with
  | false => rfl
  | true => simp [BitVec.getLsbD, Nat.testBit_zero, h hc]

theorem fetch_of_unknown (hpc : s.pc.toNat ≤ 0xFFE) (aligned : (s.cfg.fetchAlignCheck && s.pc.getLsbD 0) = false)
    (unknown : decodeWord s.wordAtPc = none) : s.fetch = .fault .unknownInstruction (some s.wordAtPc) none := by
  rw [State.fetch, if_neg (by omega), if_neg (by rw [aligned]; exact Bool.false_ne_true), unknown]

/-- Whatever byte is drawn for it, a step whose fetch faults records that fault. -/
theorem stepsTo_of_fetchFault {k : FaultKind} {word : Option Word} {a : Option Nat} (running : s.fault = none)
    (hf : s.fetch = .fault k word a) : StepsTo s (s.markStep.enterFault k word a) :=
  ⟨step_of_fetchFault running hf, fun _ => stepBy_of_fetchFault _ running hf⟩

/-- Settles O3: the decoder class by class, then the fetch of such a word. -/
theorem unrecognisedWordsRaiseUnknownInstruction : Obligations.UnrecognisedWordsRaiseUnknownInstruction := by
  unfold Obligations.UnrecognisedWordsRaiseUnknownInstruction
  refine ⟨fun _ => decodeWord_eq_none_iff, ?_⟩
  rintro s w running hpc even rfl unrecognised
  exact stepsTo_of_fetchFault running
    (fetch_of_unknown hpc (aligned_of_even even) (decodeWord_eq_none_iff.2 unrecognised))

/-- An instruction in a step that is given no byte is the instruction with some byte given, but for the count of
draws. -/
theorem exec_eq_execGiven (i : Instr) (s : State) :
    ∃ rand t n, execGiven rand i s = .next t ∧ exec i s = .next { t with draws := n } := by
  by_cases hi : ∃ x kk, i = .rnd x kk
  · obtain ⟨x, kk, rfl⟩ := hi
    exact ⟨Config.randByte s.draws, _, s.draws + 1, rfl, rfl⟩
  · obtain ⟨t, e, -⟩ := exec_execEnds i s
    refine ⟨0, t, t.draws, ?_, e⟩
    rw [execGiven_of_ne fun x kk h => hi ⟨x, kk, h⟩, e]

theorem step_eq_stepGiven (s : State) :
    ∃ rand t n, stepGiven rand s = .next t ∧ step s = .next { t with draws := n } := by
  rcases step_cases s with ⟨h, e⟩ | ⟨i, running, fetched, e⟩ | ⟨k, w, a, running, fetched, e⟩
  · exact ⟨0, s, s.draws, stepGiven_of_fault 0 h, e⟩
  · obtain ⟨rand, t, n, given, free⟩ := exec_eq_execGiven i s.markStep
    exact ⟨rand, t, n, (stepGiven_of_instr rand running fetched).trans given, e.trans free⟩
  · obtain ⟨_, given⟩ := stepsTo_of_fetchFault running fetched
    exact ⟨0, _, s.draws, given 0, e⟩

/-- Settles O7. -/
theorem stepRunsTheDecodedInstruction : Obligations.StepRunsTheDecodedInstruction := by
  unfold Obligations.StepRunsTheDecodedInstruction
  refine ⟨fun s i running hpc even decoded => ?_, step_eq_stepGiven⟩
  have fetched : s.fetch = .instr i := fetch_of_decodeWord hpc (aligned_of_even even) decoded
  exact ⟨step_of_instr running fetched, fun rand => stepGiven_of_instr rand running fetched⟩

end Sys2Proof.Machine
end

section
/-! ### How many words of each class are instructions -/

namespace Sys2Proof.Machine

/-- Of the numbers below `m * n`, `m` times as many have their remainder modulo `n` in a list as there are entries. -/
theorem length_filter_mod_mem (m n : Nat) {l : List Nat} (nodup : l.Nodup) (lt : ∀ k ∈ l, k < n) :
    ((List.range (m * n)).filter fun k => decide (k % n ∈ l)).length = m * l.length := by
  induction m with
  | zero => simp
  | succ m ih =>
    have block : ((List.range n).filter fun k => decide ((m * n + k) % n ∈ l)).Perm l := by
      rw [List.perm_ext_iff_of_nodup (List.nodup_range.filter _) nodup]
      intro k
      simp only [Nat.mul_add_mod_self_right, List.mem_filter, List.mem_range, decide_eq_true_eq]
      constructor
      · rintro ⟨hk, hl⟩
        rwa [Nat.mod_eq_of_lt hk] at hl
      · intro hl
        exact ⟨lt k hl, by rwa [Nat.mod_eq_of_lt (lt k hl)]⟩
    rw [Nat.succ_mul, List.range_add, List.filter_append, List.length_append, ih, List.filter_map, List.length_map,
      Nat.succ_mul]
    exact congrArg _ block.length_eq

/-- A class whose instructions are the words with a remainder modulo `n` in the list `l`: `n` is `16` where the low
nibble selects, `256` where the low byte does, `4096` where the whole word does, and `1` where every word is an
instruction. -/
theorem recognisedInClass_eq_mul {c : Nat} (hc : c < 16) (m n : Nat) (hmn : m * n = 4096) (l : List Nat)
    (nodup : l.Nodup) (lt : ∀ k ∈ l, k < n)
    (selects : ∀ w : Word, w.toNat / 4096 = c → (Unrecognised w ↔ w.toNat % n ∉ l)) :
    recognisedInClass c = m * l.length := by
  have recognised : ∀ k ∈ List.range 4096,
      (decodeWord (BitVec.ofNat 16 (4096 * c + k))).isSome = decide (k % n ∈ l) := by
    intro k hk
    have hk : k < 4096 := List.mem_range.1 hk
    have number : (BitVec.ofNat 16 (4096 * c + k)).toNat = 4096 * c + k := Nat.mod_eq_of_lt (by omega)
    have low : (4096 * c + k) % n = k % n := by rw [← hmn, Nat.mul_right_comm, Nat.mul_add_mod_self_right]
    have selected := selects _ (by rw [number]; omega)
    rw [number, low] at selected
    rw [Bool.eq_iff_iff, Option.isSome_iff_ne_none, ne_eq, decodeWord_eq_none_iff, selected]
    simp
  rw [recognisedInClass, List.filter_congr recognised, ← hmn, length_filter_mod_mem m n nodup lt]

/-- A class of one instruction, all of whose words are recognised. -/
theorem recognisedInClass_full {c : Nat} (hc : c ∈ [0x1, 0x2, 0x3, 0x4, 0x6, 0x7, 0xA, 0xB, 0xC, 0xD]) :
    recognisedInClass c = 4096 := by
  have other : c < 16 ∧ c ≠ 0x0 ∧ c ≠ 0x5 ∧ c ≠ 0x8 ∧ c ≠ 0x9 ∧ c ≠ 0xE ∧ c ≠ 0xF := by
    revert c
    decide
  refine recognisedInClass_eq_mul other.1 4096 1 rfl [0] (by decide) (by decide) fun w hw => ?_
  simp [Unrecognised, hw, other, Nat.mod_one]

theorem recognisedInClass_0 : recognisedInClass 0x0 = 2 :=
  recognisedInClass_eq_mul (by decide) 1 4096 rfl [0x0E0, 0x0EE] (by decide) (by decide) fun w hw => by
    simp [Unrecognised, hw, show w.toNat % 4096 = w.toNat by omega]

theorem recognisedInClass_5 : recognisedInClass 0x5 = 256 :=
  recognisedInClass_eq_mul (by decide) 256 16 rfl [0x0] (by decide) (by decide) fun w hw => by
    simp [Unrecognised, hw]

theorem recognisedInClass_8 : recognisedInClass 0x8 = 2304 :=
  recognisedInClass_eq_mul (by decide) 256 16 rfl [0x0, 0x1, 0x2, 0x3, 0x4, 0x5, 0x6, 0x7, 0xE] (by decide) (by decide)
    fun w hw => by
      simp [Unrecognised, hw]
      omega

theorem recognisedInClass_9 : recognisedInClass 0x9 = 256 :=
  recognisedInClass_eq_mul (by decide) 256 16 rfl [0x0] (by decide) (by decide) fun w hw => by
    simp [Unrecognised, hw]

theorem recognisedInClass_E : recognisedInClass 0xE = 32 :=
  recognisedInClass_eq_mul (by decide) 16 256 rfl [0x9E, 0xA1] (by decide) (by decide) fun w hw => by
    simp [Unrecognised, hw]

theorem recognisedInClass_F : recognisedInClass 0xF = 144 :=
  recognisedInClass_eq_mul (by decide) 16 256 rfl [0x07, 0x0A, 0x15, 0x18, 0x1E, 0x29, 0x33, 0x55, 0x65] (by decide)
    (by decide) fun w hw => by simp [Unrecognised, hw]

/-- Settles O5: the sub-opcodes of each class, and their sum. -/
theorem recognisedWordsOfEachClassAreCounted : Obligations.RecognisedWordsOfEachClassAreCounted := by
  unfold Obligations.RecognisedWordsOfEachClassAreCounted
  have total : ((List.range 16).map recognisedInClass).sum = 43954 := by
    simp [List.range_succ, recognisedInClass_full, recognisedInClass_0, recognisedInClass_5, recognisedInClass_8,
      recognisedInClass_9, recognisedInClass_E, recognisedInClass_F]
  exact ⟨fun c hc => recognisedInClass_full hc, recognisedInClass_0, recognisedInClass_5, recognisedInClass_8,
    recognisedInClass_9, recognisedInClass_E, recognisedInClass_F, total, by rw [total]⟩

end Sys2Proof.Machine
end

section
/-! ### The pixels of one write -/

namespace Sys2Proof.Machine

/-- Every pixel after `xor_write`: the one that the coordinates reduce to is XORed with `bit` (40_display.md rule
R103). -/
theorem Display.pixel_xorWrite (d : Display) (x y : Nat) (bit : Bool) (px py : Nat) :
    (d.xorWrite x y bit).1.pixel px py =
      if px % 64 = x % 64 ∧ py % 32 = y % 32 then (d.pixel px py ^^ bit) else d.pixel px py := by
  rw [Display.xorWrite_fst]
  by_cases hy : py % 32 = y % 32 <;> by_cases hx : px % 64 = x % 64
  · simp [Display.pixel, hy, hx]
  · simp [Display.pixel, hy, hx, Vector.getElem_set_ne _ _ (Ne.symm hx)]
  · simp [Display.pixel, hy, Vector.getElem_set_ne _ _ (Ne.symm hy)]
  · simp [Display.pixel, hy, Vector.getElem_set_ne _ _ (Ne.symm hy)]

/-- Settles O31: where `bit` is 1, the pixel that was set is the pixel that is erased. -/
theorem xorWriteFlipsOnePixelAndReportsItsErasure : Obligations.XorWriteFlipsOnePixelAndReportsItsErasure := by
  unfold Obligations.XorWriteFlipsOnePixelAndReportsItsErasure
  intro d x y bit
  refine ⟨fun px py hx hy => ?_, ?_⟩
  · rw [Display.pixel_xorWrite, Nat.mod_eq_of_lt hx, Nat.mod_eq_of_lt hy]
  · rw [Display.xorWrite_snd, Display.pixel_xorWrite, if_pos ⟨rfl, rfl⟩]
    cases d.pixel x y <;> simp

/-- Settles O32. -/
theorem clsClearsEveryPixel : Obligations.ClsClearsEveryPixel := by
  unfold Obligations.ClsClearsEveryPixel
  exact fun s => ⟨decodeWord_encode .cls, _, rfl, rfl, rfl, Display.pixel_clear, by simp [LeavesAllBut]⟩

end Sys2Proof.Machine
end

section
/-! ### The pixels of a sprite

A sprite is at most 8 columns by 15 rows on a display of 64 by 32, so its writes reach pairwise different pixels: each
write finds its pixel as it was before the instruction. -/

namespace Sys2Proof.Machine

/-- Drawing turned the buffer and the collision flag `start` into `out`: the pixels that `hit` holds of are inverted and
the others kept, and the flag gathers whether one of the inverted pixels was set (40_display.md rules R105, R107). -/
structure Flips (hit : Nat → Nat → Prop) (start out : Display × Bool) : Prop where
  pixel_hit : ∀ px py, px < 64 → py < 32 → hit px py → out.1.pixel px py = !start.1.pixel px py
  pixel_kept : ∀ px py, px < 64 → py < 32 → ¬hit px py → out.1.pixel px py = start.1.pixel px py
  collides_iff : out.2 = true ↔
    start.2 = true ∨ ∃ px py, px < 64 ∧ py < 32 ∧ start.1.pixel px py = true ∧ hit px py

namespace Flips

variable {p q : Nat → Nat → Prop} {a b c : Display × Bool}

theorem congr (h : Flips p a b) (same : ∀ px py, p px py ↔ q px py) : Flips q a b := by
  obtain rfl : p = q := funext₂ fun px py => propext (same px py)
  exact h

theorem refl (empty : ∀ px py, ¬p px py) (a : Display × Bool) : Flips p a a where
  pixel_hit px py _ _ h := absurd h (empty px py)
  pixel_kept _ _ _ _ _ := rfl
  collides_iff := by simp [empty]

/-- Two drawings that reach different pixels make one: the second finds its pixels as the first found them. -/
theorem trans (first : Flips p a b) (second : Flips q b c) (apart : ∀ px py, p px py → ¬q px py) :
    Flips (fun px py => p px py ∨ q px py) a c where
  pixel_hit px py hx hy h := by
    by_cases hq : q px py
    · rw [second.pixel_hit px py hx hy hq, first.pixel_kept px py hx hy fun hp => apart px py hp hq]
    · rw [second.pixel_kept px py hx hy hq, first.pixel_hit px py hx hy (h.resolve_right hq)]
  pixel_kept px py hx hy h := by
    rw [second.pixel_kept px py hx hy fun hq => h (.inr hq), first.pixel_kept px py hx hy fun hp => h (.inl hp)]
  collides_iff := by
    have found : ∀ px py, px < 64 ∧ py < 32 ∧ b.1.pixel px py = true ∧ q px py ↔
        px < 64 ∧ py < 32 ∧ a.1.pixel px py = true ∧ q px py := fun px py =>
      and_congr_right fun hx => and_congr_right fun hy => and_congr_left fun hq => by
        rw [first.pixel_kept px py hx hy fun hp => apart px py hp hq]
    simp only [second.collides_iff, first.collides_iff, found, and_or_left, exists_or, or_assoc]

/-- Drawings that reach pairwise different pixels, one after the other. -/
theorem foldl_range {draw : Display × Bool → Nat → Display × Bool} {hit : Nat → Nat → Nat → Prop} (n : Nat)
    (each : ∀ k a, Flips (hit k) a (draw a k))
    (apart : ∀ j k px py, j < k → k < n → hit j px py → ¬hit k px py) (a : Display × Bool) :
    Flips (fun px py => ∃ k < n, hit k px py) a ((List.range n).foldl draw a) := by
  induction n with
  | zero => exact refl (by simp) a
  | succ n ih =>
    rw [List.range_succ, List.foldl_append]
    have before := ih fun j k px py hjk hk => apart j k px py hjk (by omega)
    refine (before.trans (each n _) ?_).congr fun px py => Nat.exists_lt_succ_right.symm
    rintro px py ⟨j, hj, hit⟩
    exact apart j n px py hj (by omega) hit

/-- The erased pixels are those that were set and hit. -/
theorem erased_iff (h : Flips p a b) {px py : Nat} (hx : px < 64) (hy : py < 32) :
    a.1.pixel px py = true ∧ b.1.pixel px py = false ↔ a.1.pixel px py = true ∧ p px py := by
  by_cases hp : p px py
  · simp [h.pixel_hit px py hx hy hp, hp]
  · simp [h.pixel_kept px py hx hy hp, hp]

end Flips

/-! #### One pixel, one row, all rows -/

/-- One write of a row: the pixel of column `c`, with the collision gathered. -/
def drawColumn (b : Byte) (x y : Nat) (acc : Display × Bool) (c : Nat) : Display × Bool :=
  ((acc.1.xorWrite (x + c) y (b.getLsbD (7 - c))).1, acc.2 || (acc.1.xorWrite (x + c) y (b.getLsbD (7 - c))).2)

theorem drawRow_eq_foldl (b : Byte) (x y : Nat) (start : Display × Bool) :
    drawRow b x y start = (List.range 8).foldl (drawColumn b x y) start := rfl

/-- Column `c` of the row `b` at `(x, y)` has a set bit that lands on the pixel `(px, py)`. -/
def ColumnSets (b : Byte) (x y c px py : Nat) : Prop :=
  (x + c) % 64 = px ∧ y % 32 = py ∧ b.getLsbD (7 - c) = true

theorem drawColumn_flips (b : Byte) (x y c : Nat) (a : Display × Bool) :
    Flips (ColumnSets b x y c) a (drawColumn b x y a c) where
  pixel_hit px py _ _ h := by
    obtain ⟨rfl, rfl, bit⟩ := h
    simp [drawColumn, Display.pixel_xorWrite, bit]
  pixel_kept px py hx hy h := by
    rw [drawColumn, Display.pixel_xorWrite, Nat.mod_eq_of_lt hx, Nat.mod_eq_of_lt hy]
    split
    · next here =>
      obtain ⟨rfl, rfl⟩ := here
      simp [Bool.eq_false_iff.2 fun bit => h ⟨rfl, rfl, bit⟩]
    · rfl
  collides_iff := by
    rw [drawColumn, Display.xorWrite_snd, Bool.or_eq_true, Bool.and_eq_true, ← Display.pixel_mod]
    refine or_congr_right ⟨fun ⟨set, bit⟩ => ⟨_, _, ?_, ?_, set, rfl, rfl, bit⟩, ?_⟩
    · exact Nat.mod_lt _ (by decide)
    · exact Nat.mod_lt _ (by decide)
    · rintro ⟨_, _, -, -, set, rfl, rfl, bit⟩
      exact ⟨set, bit⟩

theorem drawRow_flips (b : Byte) (x y : Nat) (a : Display × Bool) :
    Flips (fun px py => ∃ c < 8, ColumnSets b x y c px py) a (drawRow b x y a) := by
  rw [drawRow_eq_foldl]
  refine Flips.foldl_range 8 (drawColumn_flips b x y) ?_ a
  rintro j k px py hjk hk ⟨hj, -, -⟩ ⟨hk', -, -⟩
  omega

theorem drawRows_append (rows rest : List Byte) (x y : Nat) (start : Display × Bool) :
    drawRows (rows ++ rest) x y start = drawRows rest x (y + rows.length) (drawRows rows x y start) := by
  induction rows generalizing y start with
  | nil => rfl
  | cons b rows ih =>
    rw [List.cons_append, drawRows, ih, drawRows, List.length_cons, Nat.add_right_comm, Nat.add_assoc]

theorem drawRows_map_range (byte : Nat → Byte) (n x y : Nat) (start : Display × Bool) :
    drawRows ((List.range n).map byte) x y start =
      (List.range n).foldl (fun acc r => drawRow (byte r) x (y + r) acc) start := by
  induction n with
  | zero => rfl
  | succ n ih =>
    rw [List.range_succ, List.map_append, drawRows_append, ih, List.foldl_append, List.length_map, List.length_range]
    rfl

/-- Drawing a sprite inverts the pixels on which its set bits land (40_display.md rules R105, R106). -/
theorem drawRows_spriteBytes_flips (s : State) (x y : RegIdx) (n : Fin 16) (a : Display × Bool) :
    Flips (SpriteSets s x y n.val) a (drawRows (s.spriteBytes n.val) (s.reg x).toNat (s.reg y).toNat a) := by
  rw [State.spriteBytes, drawRows_map_range]
  refine (Flips.foldl_range n.val (fun r a => drawRow_flips (s.byteAt r) _ _ a) ?_ a).congr fun px py => ?_
  · rintro j k px py hjk hk ⟨_, -, -, hj, -⟩ ⟨_, -, -, hk', -⟩
    omega
  · simp only [SpriteSets, ColumnSets, State.byteAt, exists_and_left]

end Sys2Proof.Machine
end

section
/-! ### `Dxyn` -/

namespace Sys2Proof.Machine

/-- A `Dxyn` inside the address space inverts the pixels of its sprite and leaves the collision in `VF`; another one
faults. -/
theorem exec_drw_flips (x y : RegIdx) (n : Fin 16) (s : State) :
    (s.leavesMemory n.val = false ∧ ∃ out, Flips (SpriteSets s x y n.val) (s.display, false) out ∧
      exec (.drw x y n) s = .next (((s.setDisplay out.1).setReg vf (b2u out.2)).complete (s.pc + 2))) ∨
    (s.leavesMemory n.val = true ∧ exec (.drw x y n) s =
      .next (s.enterFault .memoryOutOfRange (some (encode (.drw x y n))) (some (max s.index.toNat 0x1000)))) := by
  rcases execDrw_cases x y n s with ⟨_, rfl, range, e⟩ | fault
  · exact .inl ⟨range, _, drawRows_spriteBytes_flips s x y n _, e⟩
  · exact .inr fault

theorem patXyn_drw (x y : RegIdx) (n : Fin 16) : patXyn 0xD x y (nib n) = encode (.drw x y n) := by
  rw [patXyn_eq, nib_eq_ofFin]
  rfl

/-- Settles O33, by whether the sprite leaves the address space. -/
theorem drwXorsTheSpriteWithWraparound : Obligations.DrwXorsTheSpriteWithWraparound := by
  unfold Obligations.DrwXorsTheSpriteWithWraparound
  intro x y n s
  rw [patXyn_drw]
  refine ⟨decodeWord_encode _, ?_⟩
  have range := leavesMemory_iff s n.val
  rcases exec_drw_flips x y n s with ⟨inside, out, flips, e⟩ | ⟨outside, e⟩
  · rw [inside] at range
    have flag := flips.collides_iff
    refine ⟨fun _ => ⟨_, e, rfl, rfl, by simp [LeavesAllBut], fun k hk => ?_, fun px py hx hy => ?_, fun hit => ?_,
      fun miss => ?_⟩, fun hn above => ?_⟩
    · simp [State.setReg_reg_ne _ (x := vf) hk]
    · exact ⟨flips.pixel_hit px py hx hy, flips.pixel_kept px py hx hy⟩
    · exact (State.setReg_reg_self _ vf _).trans ((b2u_eq_one _).2 (flag.2 (.inr hit)))
    · exact (State.setReg_reg_self _ vf _).trans
        ((b2u_eq_zero _).2 (Bool.eq_false_iff.2 fun h => miss ((flag.1 h).resolve_left Bool.false_ne_true)))
    · exact absurd (range.2 ⟨hn, by omega⟩) Bool.false_ne_true
  · obtain ⟨hn, above⟩ := range.1 outside
    exact ⟨fun inside => by omega, fun _ _ => e⟩

/-- Settles O34: the flag gathers the pixels that were set and hit, and these are the erased ones. -/
theorem drwSetsVfExactlyOnErasure : Obligations.DrwSetsVfExactlyOnErasure := by
  unfold Obligations.DrwSetsVfExactlyOnErasure
  intro x y n s t h stepped
  rcases exec_drw_flips x y n s with ⟨-, out, flips, e⟩ | ⟨-, e⟩
  · obtain rfl := Host.Outcome.next.inj (e.symm.trans h)
    have vfValue : (((s.setDisplay out.1).setReg vf (b2u out.2)).complete (s.pc + 2)).reg 15 = b2u out.2 :=
      State.setReg_reg_self _ vf _
    rw [vfValue, b2u_eq_one, b2u_eq_zero]
    refine ⟨flips.collides_iff.trans ?_, Bool.eq_false_or_eq_true _⟩
    simp only [Bool.false_eq_true, false_or]
    refine exists₂_congr fun px py => and_congr_right fun hx => and_congr_right fun hy => ?_
    exact (flips.erased_iff hx hy).symm
  · obtain rfl := Host.Outcome.next.inj (e.symm.trans h)
    cases stepped

end Sys2Proof.Machine
end

section
/-! ### Control transfer -/

namespace Sys2Proof.Machine

variable {i : Instr} {s : State}

/-- A return with the entry `k` on top goes to the word after the one that the entry names. -/
theorem exec_ret_of_top {k : Fin 16} (top : k.val + 1 = s.sp.val) :
    exec .ret s = .next (({ s with sp := k.castSucc } : State).complete (s.stack[k] + 2)) := by
  have hk : s.sp.val - 1 = k.val := by omega
  rw [execRet_of_pos (by omega)]
  simp only [hk]
  rfl

/-- A call with the entry `k` free pushes its own address there. -/
theorem exec_call_of_free (nnn : Addr) {k : Fin 16} (free : k.val = s.sp.val) :
    exec (.call nnn) s =
      .next (({ s with stack := s.stack.set k s.pc, sp := k.succ } : State).complete (zextAddr nnn)) := by
  rw [execCall_of_lt nnn (by omega)]
  simp only [← free]
  rfl

theorem complete_leavesAll (s : State) (pc : Word) : LeavesAllBut [] s (s.complete pc) := by simp [LeavesAllBut]

/-- An instruction that completes with another stack leaves all the rest. -/
theorem complete_leavesAllButStack (s : State) (q : Vector Word 16) (n : Fin 17) (pc : Word) :
    LeavesAllBut [.stack] s (({ s with stack := q, sp := n } : State).complete pc) := by
  simp [LeavesAllBut, State.reg]

/-- A skip writes nothing but `pc`; `c` is its condition as a proposition and `d` the opposite one. -/
theorem completes_of_skipIf {b : Bool} {c d : Prop} (e : exec i s = s.skipIf b) (taken : c → b = true)
    (passed : d → b = false) :
    Completes i s fun t => (c → t.pc = s.pc + 4) ∧ (d → t.pc = s.pc + 2) ∧ LeavesAllBut [] s t :=
  ⟨_, e, rfl, fun h => if_pos (taken h), fun h => if_neg (Bool.eq_false_iff.1 (passed h)), complete_leavesAll s _⟩

/-- Classes `0x5` and `0x9` have one instruction each, with the low nibble 0 (30_encoding.md rule R77). -/
theorem decodeWord_encXyn_eq_none {c n : BitVec 4} (hc : c = 0x5 ∨ c = 0x9) (hn : n ≠ 0) (x y : RegIdx) :
    decodeWord (encXyn c x y n) = none := by
  rcases hc with rfl | rfl
  · simpa [decodeWord] using hn
  · simpa [decodeWord] using hn

/-- Settles O35, by whether an entry is on the stack. -/
theorem retPopsOrUnderflows : Obligations.RetPopsOrUnderflows := by
  unfold Obligations.RetPopsOrUnderflows
  refine fun s => ⟨decodeWord_encode .ret, fun k top => ?_, fun empty => ?_⟩
  · exact ⟨_, exec_ret_of_top top, rfl, rfl, rfl, rfl, complete_leavesAllButStack s s.stack _ _⟩
  · exact execRet_of_zero (congrArg Fin.val empty)

/-- Settles O36. -/
theorem jpSetsPcDirectly : Obligations.JpSetsPcDirectly := by
  unfold Obligations.JpSetsPcDirectly
  exact fun nnn s => ⟨decodeWord_encode (.jp nnn), _, rfl, rfl, zextAddr_toNat nnn, complete_leavesAll s _⟩

/-- Settles O37, by whether an entry is free. -/
theorem callPushesItsAddressOrOverflows : Obligations.CallPushesItsAddressOrOverflows := by
  unfold Obligations.CallPushesItsAddressOrOverflows
  refine fun nnn s => ⟨decodeWord_encode (.call nnn), fun k free => ?_, execCall_of_full nnn⟩
  refine ⟨_, exec_call_of_free nnn free, rfl, rfl, ?_, fun j hj => ?_, zextAddr_toNat nnn,
    complete_leavesAllButStack s _ _ _⟩
  · exact Vector.getElem_set_self ..
  · exact Vector.getElem_set_ne k.isLt j.isLt fun e => hj (Fin.ext e.symm)

/-- Settles O38: the call did not overflow, so the return pops the entry that it pushed. -/
theorem callThenReturnComesBackAfterTheCall : Obligations.CallThenReturnComesBackAfterTheCall := by
  unfold Obligations.CallThenReturnComesBackAfterTheCall
  intro nnn s t u h stepped hsp hstack
  obtain ⟨-, call, overflow⟩ := callPushesItsAddressOrOverflows nnn s
  by_cases full : s.sp.val = 16
  · obtain rfl := Host.Outcome.next.inj ((overflow full).symm.trans h)
    cases stepped
  · obtain ⟨k, free⟩ : ∃ k : Fin 16, k.val = s.sp.val := ⟨⟨s.sp.val, by omega⟩, rfl⟩
    obtain ⟨t', e, -, raised, pushed, others, -⟩ := call k free
    obtain rfl := Host.Outcome.next.inj (e.symm.trans h)
    obtain ⟨-, ret, -⟩ := retPopsOrUnderflows u
    obtain ⟨v, e', done, popped, target, kept, -⟩ := ret k (by rw [hsp, raised])
    refine ⟨v, e', done, ?_, Fin.ext (popped.trans free), fun j below => ?_⟩
    · rw [target, hstack, pushed]
    · rw [kept, hstack, others j (Fin.ne_of_lt (below.trans_eq free.symm))]

/-- Settles O39: four skips, each under its own comparison, and the words beside the two that compare registers. -/
theorem registerSkipsAdvanceByFourOrTwo : Obligations.RegisterSkipsAdvanceByFourOrTwo := by
  unfold Obligations.RegisterSkipsAdvanceByFourOrTwo
  intro x y kk s
  simp only [patXkk_eq, patXyn_eq]
  refine ⟨⟨decodeWord_encode (.seImm x kk), ?_⟩, ⟨decodeWord_encode (.sneImm x kk), ?_⟩,
    ⟨decodeWord_encode (.seReg x y), ?_⟩, ⟨decodeWord_encode (.sneReg x y), ?_⟩, fun n hn => ⟨?_, ?_⟩⟩
  · exact completes_of_skipIf rfl beq_iff_eq.2 beq_eq_false_iff_ne.2
  · exact completes_of_skipIf rfl bne_iff_ne.2 bne_eq_false_iff_eq.2
  · exact completes_of_skipIf rfl beq_iff_eq.2 beq_eq_false_iff_ne.2
  · exact completes_of_skipIf rfl bne_iff_ne.2 bne_eq_false_iff_eq.2
  · exact decodeWord_encXyn_eq_none (.inl rfl) hn x y
  · exact decodeWord_encXyn_eq_none (.inr rfl) hn x y

/-- Settles O40: the sum stays below `2 ^ 16`. -/
theorem jpV0AddsWithoutTruncation : Obligations.JpV0AddsWithoutTruncation := by
  unfold Obligations.JpV0AddsWithoutTruncation
  exact fun nnn s => ⟨decodeWord_encode (.jpV0 nnn), _, rfl, rfl, jumpTarget_toNat nnn _, complete_leavesAll s _⟩

end Sys2Proof.Machine
end

section
/-! ### Instructions that write one register (42_alu.md rules R142 to R147, R153) -/

namespace Sys2Proof.Machine

variable {s : State} {o : Result} {x : RegIdx}

theorem setRegs_leavesAllButRegs (s : State) (r : Vector Byte 16) (pc : Word) :
    LeavesAllBut [.regs] s ((s.setRegs r).complete pc) := by simp [LeavesAllBut]

/-- The write of one register, and the advance; `P` is what is said of the value written. -/
theorem completes_of_writeReg (P : Byte → Prop) {v : Byte} (e : o = writeReg x v s) (hv : P v) :
    ∃ t, o = .next t ∧ t.status = .stepped ∧ t.pc = s.pc + 2 ∧ P (t.reg x) ∧ (∀ k, k ≠ x → t.reg k = s.reg k) ∧
      LeavesAllBut [.regs] s t :=
  ⟨_, e, rfl, rfl, (State.setReg_reg_self s x v).symm ▸ hv, fun _ hk => State.setReg_reg_ne s hk v,
    setRegs_leavesAllButRegs s _ _⟩

/-- Settles O42. -/
theorem immediateAndCopyWriteOnlyVx : Obligations.ImmediateAndCopyWriteOnlyVx := by
  unfold Obligations.ImmediateAndCopyWriteOnlyVx
  intro x y kk s
  simp only [patXkk_eq, patXyn_eq]
  refine ⟨⟨decodeWord_encode (.ldImm x kk), ?_⟩, ⟨decodeWord_encode (.addImm x kk), ?_⟩,
    ⟨decodeWord_encode (.ldReg x y), ?_⟩⟩
  · exact completes_of_writeReg (· = kk) rfl rfl
  · exact completes_of_writeReg (·.toNat = ((s.reg x).toNat + kk.toNat) % 256) rfl (BitVec.toNat_add ..)
  · exact completes_of_writeReg (· = s.reg y) rfl rfl

/-- Settles O43. -/
theorem logicWritesOnlyVx : Obligations.LogicWritesOnlyVx := by
  unfold Obligations.LogicWritesOnlyVx
  intro x y s
  simp only [patXyn_eq]
  refine ⟨⟨decodeWord_encode (.orReg x y), ?_⟩, ⟨decodeWord_encode (.andReg x y), ?_⟩,
    ⟨decodeWord_encode (.xorReg x y), ?_⟩⟩
  · exact completes_of_writeReg (fun v => ∀ b, v.getLsbD b = ((s.reg x).getLsbD b || (s.reg y).getLsbD b)) rfl
      fun _ => BitVec.getLsbD_or
  · exact completes_of_writeReg (fun v => ∀ b, v.getLsbD b = ((s.reg x).getLsbD b && (s.reg y).getLsbD b)) rfl
      fun _ => BitVec.getLsbD_and
  · exact completes_of_writeReg (fun v => ∀ b, v.getLsbD b = ((s.reg x).getLsbD b ^^ (s.reg y).getLsbD b)) rfl
      fun _ => BitVec.getLsbD_xor

/-- Settles O48: the given byte is masked; without one, the next byte of the unknown sequence is masked and counted. -/
theorem rndMasksTheDrawnByte : Obligations.RndMasksTheDrawnByte := by
  unfold Obligations.RndMasksTheDrawnByte
  intro x kk s
  rw [patXkk_eq]
  refine ⟨decodeWord_encode (.rnd x kk), fun rand => ?_, ?_⟩
  · exact completes_of_writeReg (fun v => ∀ b, v.getLsbD b = (rand.getLsbD b && kk.getLsbD b)) rfl
      fun _ => BitVec.getLsbD_and
  · refine ⟨(s.countDraw.setReg x (Config.randByte s.draws &&& kk)).complete (s.pc + 2), rfl, rfl, rfl, fun _ => ?_, rfl,
      fun _ hk => State.setReg_reg_ne _ hk _, by simp [LeavesAllBut]⟩
    rw [State.complete_reg, State.setReg_reg_self, BitVec.getLsbD_and]

end Sys2Proof.Machine
end

section
/-! ### The flag instructions (42_alu.md rules R140, R141, R148 to R152) -/

namespace Sys2Proof.Machine

variable {i : Instr} {s : State} {x y : RegIdx} {res flag : Vector Byte 16 → Byte}

/-! #### Results and flags as numbers -/

theorem b2u_decide (c : Prop) [Decidable c] : b2u (decide c) = if c then 1 else 0 := by
  by_cases h : c <;> simp [b2u, h]

theorem b2u_eq_ofNat_toNat (c : Bool) : b2u c = BitVec.ofNat 8 c.toNat := by cases c <;> rfl

theorem byte_sub_eq_ofNat (a b : Byte) : a - b = BitVec.ofNat 8 (256 + a.toNat - b.toNat) := by bv_omega

theorem byte_shiftRight_eq_ofNat (a : Byte) : a >>> 1 = BitVec.ofNat 8 (a.toNat / 2) := by bv_omega

theorem byte_shiftLeft_eq_ofNat (a : Byte) : a <<< 1 = BitVec.ofNat 8 (2 * a.toNat) := by bv_omega

theorem shrFlag_eq_ofNat (a : Byte) : shrFlag a = BitVec.ofNat 8 (a.toNat % 2) := by
  rw [shrFlag, b2u_eq_ofNat_toNat, BitVec.getLsbD, Nat.toNat_testBit]
  simp

theorem shlFlag_eq_ofNat (a : Byte) : shlFlag a = BitVec.ofNat 8 (a.toNat / 128) := by
  have := a.isLt
  rw [shlFlag, b2u_eq_ofNat_toNat, BitVec.getLsbD, Nat.toNat_testBit, Nat.mod_eq_of_lt (by omega)]

/-! #### The result first -/

/-- Settles O44: the flag is written last, over the sum where `x = F`. -/
theorem addRegWrapsAndSetsCarry : Obligations.AddRegWrapsAndSetsCarry := by
  unfold Obligations.AddRegWrapsAndSetsCarry
  intro x y s
  rw [patXyn_eq]
  have regs k := writeResultThenFlag_getElem x k (s.reg x + s.reg y) (carryFlag (s.reg x) (s.reg y)) s.regs
  refine ⟨decodeWord_encode (.addReg x y), _, rfl, rfl, rfl, ?_, fun hx => ?_, fun k hx hf => ?_,
    setRegs_leavesAllButRegs s _ _⟩
  · exact (regs 15).trans ((if_pos rfl).trans (b2u_decide _))
  · exact (congrArg BitVec.toNat ((regs x).trans ((if_neg hx).trans (if_pos rfl)))).trans (BitVec.toNat_add ..)
  · exact (regs k).trans ((if_neg hf).trans (if_neg hx))

/-! #### The flag first, under each reading -/

/-- The registers are the ones that each reading of rule R141 gives; `res'` and `flag'` say the result and the flag of
the model's `res` and `flag`. -/
theorem writeFlagOp_flagFirstWrites (reading : VfAlias) {res' : (RegIdx → Byte) → Byte} {flag' : Byte}
    {r : Vector Byte 16} (hres : ∀ q : Vector Byte 16, res q = res' fun k => q[k]) (hflag : flag r = flag') :
    FlagFirstWrites reading x res' flag' (fun k => r[k]) fun k => (writeFlagOp reading x res flag r)[k] := by
  obtain rfl := hflag
  have regs k := writeFlagOp_getElem reading x k res flag r
  have written : res (r.set vf (flag r)) = res' fun j => if j = 15 then flag r else r[j] :=
    (hres _).trans (congrArg res' (funext fun j => set_getElem r vf j (flag r)))
  rw [written, hres r] at regs
  cases reading <;> exact regs

theorem completes_of_flagOp {res' : (RegIdx → Byte) → Byte} {flag' : Byte} (e : exec i s = flagOp x res flag s)
    (hres : ∀ q : Vector Byte 16, res q = res' fun k => q[k]) (hflag : flag s.regs = flag') :
    Completes i s fun t => t.pc = s.pc + 2 ∧ FlagFirstWrites s.cfg.vfAlias x res' flag' s.reg t.reg ∧
      LeavesAllBut [.regs] s t :=
  ⟨_, e.trans (flagOp_eq ..), rfl, rfl, writeFlagOp_flagFirstWrites _ hres hflag, setRegs_leavesAllButRegs s _ _⟩

/-- Settles O45: `256 + a - b` on exact integers is `a - b` modulo 256, and there is no borrow where `a >= b`. -/
theorem subtractionsUnderEveryReading : Obligations.SubtractionsUnderEveryReading := by
  unfold Obligations.SubtractionsUnderEveryReading
  intro x y s
  simp only [patXyn_eq]
  refine ⟨⟨decodeWord_encode (.subReg x y), ?_⟩, ⟨decodeWord_encode (.subnReg x y), ?_⟩⟩
  · exact completes_of_flagOp rfl (fun _ => byte_sub_eq_ofNat ..) (b2u_decide _)
  · exact completes_of_flagOp rfl (fun _ => byte_sub_eq_ofNat ..) (b2u_decide _)

/-- Settles O46: a shift by one halves or doubles, and the bit that it puts out is the remainder or the carry. -/
theorem shiftsUnderEveryReading : Obligations.ShiftsUnderEveryReading := by
  unfold Obligations.ShiftsUnderEveryReading
  intro x y s
  simp only [patXyn_eq]
  refine ⟨⟨decodeWord_encode (.shr x y), ?_⟩, ⟨decodeWord_encode (.shl x y), ?_⟩⟩
  · exact completes_of_flagOp rfl (fun _ => byte_shiftRight_eq_ofNat _) (shrFlag_eq_ofNat _)
  · exact completes_of_flagOp rfl (fun _ => byte_shiftLeft_eq_ofNat _) (shlFlag_eq_ofNat _)

/-! #### Where the readings agree -/

/-- `s` on a machine whose `VF_ALIAS` is `a`. -/
def State.withReading (a : VfAlias) (s : State) : State := { s with cfg := { s.cfg with vfAlias := a } }

theorem getElem_set_vf_of_ne (r : Vector Byte 16) (hx : x ≠ 15) (v : Byte) : (r.set vf v)[x] = r[x] := by
  rw [set_getElem]
  exact if_neg hx

/-- Away from `VF` every reading writes the result and the flag of the latched registers, and the two writes commute. -/
theorem writeFlagOp_eq_of_ne (reading : VfAlias) (hx : x ≠ 15) (hres : ∀ r v, res (r.set vf v) = res r)
    (r : Vector Byte 16) : writeFlagOp reading x res flag r = writeResultThenFlag x (res r) (flag r) r := by
  have swap : (r.set vf (flag r)).set x (res r) = (r.set x (res r)).set vf (flag r) :=
    Vector.set_comm _ _ fun h => hx (Fin.ext h.symm)
  cases reading with
  | flagLast => rfl
  | tableOrder => exact swap
  | sequential => exact .trans (by rw [writeFlagOp, hres]) swap

theorem flagOp_readings_agree (hx : x ≠ 15) (hres : ∀ r v, res (r.set vf v) = res r) (a b : VfAlias) (s : State) :
    ∃ t, flagOp x res flag (s.withReading a) = .next t ∧
      flagOp x res flag (s.withReading b) = .next { t with cfg := { s.cfg with vfAlias := b } } := by
  refine ⟨_, flagOp_eq .., ?_⟩
  rw [flagOp_eq, writeFlagOp_eq_of_ne _ hx hres, writeFlagOp_eq_of_ne _ hx hres]
  rfl

/-- Settles O47: a result that does not read `VF` is the same whichever write comes first; `8xy4` reads no
`VF_ALIAS`. -/
theorem readingsAgreeAwayFromVf : Obligations.ReadingsAgreeAwayFromVf := by
  unfold Obligations.ReadingsAgreeAwayFromVf
  intro x y s a b i hx hy hi
  have vx r v := getElem_set_vf_of_ne r hx v
  have vy r v := getElem_set_vf_of_ne r hy v
  simp only [List.mem_cons, List.not_mem_nil, or_false] at hi
  rcases hi with rfl | rfl | rfl | rfl | rfl
  case inl => exact ⟨_, rfl, rfl⟩
  all_goals
    refine flagOp_readings_agree hx (fun r v => ?_) a b s
    simp only [vx, vy]

end Sys2Proof.Machine
end

section
/-! ### The index register and memory (43_index_memory.md) -/

namespace Sys2Proof.Machine

variable {i : Instr} {s : State} {ok : Result} {count : Nat} {bytes : List Byte}

/-! #### The checks -/

/-- The range check looks at the exact address of the last byte (rule R176). -/
theorem leavesMemory_succ_iff : s.leavesMemory (count + 1) = true ↔ 0xFFF < s.index.toNat + count := by
  simp [leavesMemory_iff]

theorem not_leavesMemory_succ (inside : s.index.toNat + count ≤ 0xFFF) : s.leavesMemory (count + 1) = false :=
  Bool.eq_false_iff.2 fun h => by have := leavesMemory_succ_iff.1 h; omega

/-- A checked access that reaches above `0xFFF` faults, whether it loads or stores. -/
theorem faults_of_checkRange (e : exec i s = checkRange i (count + 1) s ok) (outside : 0xFFF < s.index.toNat + count) :
    Faults i s .memoryOutOfRange (encode i) (some (max s.index.toNat 0x1000)) :=
  e.trans (checkRange_fail i ok (leavesMemory_succ_iff.2 outside))

/-- A store inside the address space and on the protected font faults. -/
theorem faults_of_checkStore (e : exec i s = checkStore i (count + 1) s ok) (inside : s.index.toNat + count ≤ 0xFFF)
    (protect : s.cfg.fontWriteProtect = true) (low : s.index.toNat ≤ s.cfg.fontBase + 79)
    (high : s.cfg.fontBase ≤ s.index.toNat + count) :
    Faults i s .fontRegionWrite (encode i) (some (max s.index.toNat s.cfg.fontBase)) := by
  have touches : s.touchesFont (count + 1) = true := (touchesFont_iff s _).2 ⟨low, high⟩
  refine e.trans ((checkRange_pass i _ (not_leavesMemory_succ inside)).trans (if_pos ?_))
  rw [protect, touches]
  rfl

/-- A store inside the address space that meets no protected font goes on. -/
theorem checkStore_pass (i : Instr) (ok : Result) (inside : s.index.toNat + count ≤ 0xFFF)
    (free : ¬(s.cfg.fontWriteProtect = true ∧ s.index.toNat ≤ s.cfg.fontBase + 79 ∧
      s.cfg.fontBase ≤ s.index.toNat + count)) : checkStore i (count + 1) s ok = ok := by
  refine (checkRange_pass i _ (not_leavesMemory_succ inside)).trans (if_neg fun h => free ?_)
  rw [Bool.and_eq_true, touchesFont_iff] at h
  exact h

/-! #### What a store and a write of `I` leave -/

theorem setMem_leavesAllButMem (s : State) (m : Memory) (pc : Word) :
    LeavesAllBut [.mem] s ((s.setMem m).complete pc) := by simp [LeavesAllBut]

theorem setIndex_leavesAllButIndex (s : State) (v pc : Word) :
    LeavesAllBut [.index] s ((s.setIndex v).complete pc) := by simp [LeavesAllBut]

/-- Bytes stored at `I`.. inside the address space leave every byte at another address. -/
theorem read_storedAtIndex_other (hm : Memory.wf s.mem) (len : bytes.length = count + 1)
    (inside : s.index.toNat + count ≤ 0xFFF) {a : Nat} (other : ∀ k ≤ count, a ≠ s.at k) :
    Memory.read (Memory.writeBytes s.mem s.index.toNat bytes) a = Memory.read s.mem a := by
  refine Memory.read_writeBytes_outside hm (show _ ≤ 4096 by omega) ?_
  by_contra within
  exact other (a - s.index.toNat) (by omega) (show a = s.index.toNat + (a - s.index.toNat) by omega)

/-- A checked store that passes completes with byte `k` at `I + k`, and nothing else written. -/
theorem completes_of_checkStore (e : exec i s = checkStore i (count + 1) s (storeAtIndex bytes s))
    (hm : Memory.wf s.mem) (len : bytes.length = count + 1) (inside : s.index.toNat + count ≤ 0xFFF)
    (free : ¬(s.cfg.fontWriteProtect = true ∧ s.index.toNat ≤ s.cfg.fontBase + 79 ∧
      s.cfg.fontBase ≤ s.index.toNat + count)) :
    Completes i s fun t => t.pc = s.pc + 2 ∧
      (∀ k (hk : k < bytes.length), Memory.read t.mem (s.at k) = bytes[k]) ∧
      (∀ a, (∀ k ≤ count, a ≠ s.at k) → Memory.read t.mem a = Memory.read s.mem a) ∧ LeavesAllBut [.mem] s t :=
  ⟨_, e.trans (checkStore_pass i _ inside free), rfl, rfl,
    fun _ hk => Memory.read_writeBytes_getElem hm (show _ ≤ 4096 by omega) hk,
    fun _ other => read_storedAtIndex_other hm len inside other, setMem_leavesAllButMem s _ _⟩

/-- A checked write of `I` sets it exactly where the value is an address. -/
theorem completes_of_setIndexChecked {v : Nat} (e : exec i s = setIndexChecked i v s) (range : v ≤ 0xFFF) :
    Completes i s fun t => t.pc = s.pc + 2 ∧ t.index.toNat = v ∧ LeavesAllBut [.index] s t :=
  ⟨_, e.trans (if_neg (Nat.not_lt.2 range)), rfl, rfl, (BitVec.toNat_ofNat ..).trans (Nat.mod_eq_of_lt (by omega)),
    setIndex_leavesAllButIndex s _ _⟩

/-- A checked write of `I` faults above `0xFFF`, and records the value itself. -/
theorem faults_of_setIndexChecked {v : Nat} (e : exec i s = setIndexChecked i v s) (above : 0xFFF < v) :
    Faults i s .memoryOutOfRange (encode i) (some v) :=
  e.trans (if_pos above)

/-! #### Bytes and digits -/

/-- A number that is at most a byte is its own byte. -/
theorem toNat_ofNat_of_le_byte {n : Nat} {v : Byte} (h : n ≤ v.toNat) : (BitVec.ofNat 8 n).toNat = n :=
  (BitVec.toNat_ofNat ..).trans (Nat.mod_eq_of_lt (h.trans_lt v.isLt))

theorem lt_lowRegs_length {x k : RegIdx} (s : State) (hk : k ≤ x) : k.val < (s.lowRegs x).length :=
  (lowRegs_length s x).symm ▸ Nat.lt_succ_of_le hk

/-! #### The instructions -/

/-- Settles O49: `Annn` is total, `Fx1E` and `Fx29` are the checked write of their own sum. -/
theorem indexIsSetExactlyOrFaults : Obligations.IndexIsSetExactlyOrFaults := by
  unfold Obligations.IndexIsSetExactlyOrFaults
  intro x nnn s
  simp only [patXkk_eq]
  refine ⟨⟨decodeWord_encode (.ldIndex nnn), _, rfl, rfl, rfl, zextAddr_toNat nnn, setIndex_leavesAllButIndex s _ _⟩,
    decodeWord_encode (.addIndex x), ?_, ?_, decodeWord_encode (.ldGlyph x), ?_, ?_⟩
  · exact completes_of_setIndexChecked rfl
  · exact faults_of_setIndexChecked rfl
  · exact completes_of_setIndexChecked rfl
  · exact faults_of_setIndexChecked rfl

/-- Settles O50: the checked store of three digits, each below 256. -/
theorem bcdStoresTheDecimalDigits : Obligations.BcdStoresTheDecimalDigits := by
  unfold Obligations.BcdStoresTheDecimalDigits
  intro x s hm
  rw [patXkk_eq]
  refine ⟨decodeWord_encode (.bcd x), fun inside free => ?_, faults_of_checkRange rfl, faults_of_checkStore rfl⟩
  obtain ⟨t, e, done, hpc, stored, kept, frame⟩ :=
    completes_of_checkStore (i := .bcd x) rfl hm (decimalDigits_length _) inside free
  refine ⟨t, e, done, hpc, ?_, ?_, ?_, fun a h0 h1 h2 => kept a fun k hk => ?_, frame⟩
  · exact (congrArg BitVec.toNat (stored 0 (by simp))).trans (toNat_ofNat_of_le_byte (Nat.div_le_self ..))
  · exact (congrArg BitVec.toNat (stored 1 (by simp))).trans
      (toNat_ofNat_of_le_byte ((Nat.mod_le ..).trans (Nat.div_le_self ..)))
  · exact (congrArg BitVec.toNat (stored 2 (by simp))).trans (toNat_ofNat_of_le_byte (Nat.mod_le ..))
  · interval_cases k <;> assumption

/-- Settles O51: the checked store of the `x + 1` low registers. -/
theorem storeRegsCopiesV0ToVx : Obligations.StoreRegsCopiesV0ToVx := by
  unfold Obligations.StoreRegsCopiesV0ToVx
  intro x s hm
  rw [patXkk_eq]
  refine ⟨decodeWord_encode (.storeRegs x), fun inside free => ?_, faults_of_checkRange rfl, faults_of_checkStore rfl⟩
  obtain ⟨t, e, done, hpc, stored, kept, frame⟩ :=
    completes_of_checkStore (i := .storeRegs x) rfl hm (lowRegs_length s x) inside free
  refine ⟨t, e, done, hpc, fun k hk => ?_, fun a other => kept a fun k hk => ?_, frame⟩
  · exact (stored k.val (lt_lowRegs_length s hk)).trans (lowRegs_getElem s x k.val _)
  · exact other ⟨k, by omega⟩ hk

/-- Settles O52, by whether a register is among those loaded. -/
theorem loadRegsCopiesToV0ToVx : Obligations.LoadRegsCopiesToV0ToVx := by
  unfold Obligations.LoadRegsCopiesToV0ToVx
  intro x s
  rw [patXkk_eq]
  refine ⟨decodeWord_encode (.loadRegs x), fun inside => ?_, faults_of_checkRange rfl⟩
  refine ⟨_, checkRange_pass _ _ (not_leavesMemory_succ inside), rfl, rfl, fun k hk => ?_, fun k hk => ?_,
    setRegs_leavesAllButRegs s _ _⟩
  · exact (loadedRegs_getElem s x k).trans (if_pos hk)
  · exact (loadedRegs_getElem s x k).trans (if_neg (Fin.not_le.2 hk))

/-- Settles O53: the store did not fault, so the load is in range and reads the stored bytes. -/
theorem storeThenLoadRestoresTheRegisters : Obligations.StoreThenLoadRestoresTheRegisters := by
  unfold Obligations.StoreThenLoadRestoresTheRegisters
  intro x s t u hm h stepped hindex unchanged
  obtain ⟨inMemory, rfl⟩ := exec_storeRegs_of_stepped h stepped
  obtain ⟨-, load, -⟩ := loadRegsCopiesToV0ToVx x u
  have range : s.index.toNat + (x.val + 1) ≤ 4096 := inMemory
  obtain ⟨v, e, done, -, loaded, -⟩ := load (by rw [hindex]; omega)
  refine ⟨v, e, done, fun k hk => ?_⟩
  have hlen := lt_lowRegs_length s hk
  calc v.reg k = Memory.read u.mem (s.at k.val) := by rw [loaded k hk, State.at, State.at, hindex]
    _ = Memory.read (Memory.writeBytes s.mem s.index.toNat (s.lowRegs x)) (s.index.toNat + k.val) := unchanged k hk
    _ = (s.lowRegs x)[k.val] := Memory.read_writeBytes_getElem hm (by rwa [lowRegs_length]) hlen
    _ = s.reg k := lowRegs_getElem s x k.val hlen

end Sys2Proof.Machine
end

section
/-! ### The keypad and the timers (44_keypad_timer.md) -/

namespace Sys2Proof.Machine

variable {i : Instr} {s : State} {x : RegIdx} {want : Bool}

/-! #### The keypad -/

/-- A keypad skip on a key that there is skips by the state of that key. -/
theorem skipOnKey_of_key {k : Fin 16} (key : (s.reg x).toNat = k.val) :
    skipOnKey i x want s = s.skipIf (s.keys[k] == want) := by
  simp only [skipOnKey, keyPressed_of_lt (key.trans_lt k.isLt), key]
  rfl

/-- A keypad skip on a number that is no key faults, whichever state of the key it asks for. -/
theorem faults_of_skipOnKey (e : exec i s = skipOnKey i x want s) (above : 0xF < (s.reg x).toNat) :
    Faults i s .keyIndexOutOfRange (encode i) none := by
  simp only [skipOnKey, keyPressed_of_ge above] at e
  exact e

/-- There is one least pressed key. -/
theorem leastPressed_unique {keys : Vector Bool 16} {j k : Fin 16} (hj : keys[j] = true)
    (belowJ : ∀ l : Fin 16, l < j → keys[l] = false) (hk : keys[k] = true)
    (belowK : ∀ l : Fin 16, l < k → keys[l] = false) : j = k := by
  rcases lt_trichotomy j k with lt | eq | gt
  · exact absurd hj (Bool.eq_false_iff.1 (belowK j lt))
  · exact eq
  · exact absurd hk (Bool.eq_false_iff.1 (belowJ k gt))

/-! #### The instructions -/

/-- Settles O56: both skips are `skipOnKey`, which a key number above `0xF` makes fault. -/
theorem keySkipsFollowTheSnapshot : Obligations.KeySkipsFollowTheSnapshot := by
  unfold Obligations.KeySkipsFollowTheSnapshot
  intro x s
  simp only [patXkk_eq]
  refine ⟨decodeWord_encode (.skp x), decodeWord_encode (.sknp x), fun k key => ⟨?_, ?_⟩, fun above => ⟨?_, ?_⟩⟩
  · exact completes_of_skipIf (skipOnKey_of_key key) beq_iff_eq.2 fun up => by simp [up]
  · exact completes_of_skipIf (skipOnKey_of_key key) beq_iff_eq.2 fun down => by simp [down]
  · exact faults_of_skipOnKey (i := .skp x) rfl above
  · exact faults_of_skipOnKey (i := .sknp x) rfl above

/-- Settles O57: one write of a register, and one of each timer. -/
theorem timerInstructionsMoveOneByte : Obligations.TimerInstructionsMoveOneByte := by
  unfold Obligations.TimerInstructionsMoveOneByte
  intro x s
  simp only [patXkk_eq]
  refine ⟨⟨decodeWord_encode (.ldFromDt x), ?_⟩, ⟨decodeWord_encode (.setDt x), ?_⟩, ⟨decodeWord_encode (.setSt x), ?_⟩⟩
  · exact completes_of_writeReg (· = s.dt) rfl rfl
  · exact ⟨_, rfl, rfl, rfl, rfl, by simp [LeavesAllBut]⟩
  · exact ⟨_, rfl, rfl, rfl, rfl, by simp [LeavesAllBut]⟩

/-- Settles O58, by whether `Fx0A` finds a key: none is pressed, or it is the one least pressed key. -/
theorem waitKeyBlocksOrStoresTheLeastKey : Obligations.WaitKeyBlocksOrStoresTheLeastKey := by
  unfold Obligations.WaitKeyBlocksOrStoresTheLeastKey
  intro x s
  rw [patXkk_eq]
  refine ⟨decodeWord_encode (.waitKey x), fun nonePressed => ?_, fun k pressed below => ?_⟩
  · rcases execWaitKey_cases x s with ⟨j, pressed, -⟩ | ⟨-, e⟩
    · exact absurd pressed (Bool.eq_false_iff.1 (nonePressed j))
    · exact e
  · rcases execWaitKey_cases x s with ⟨j, pressedJ, belowJ, e⟩ | ⟨nonePressed, -⟩
    · obtain rfl := leastPressed_unique pressedJ belowJ pressed below
      exact completes_of_writeReg (·.toNat = j.val) e ((BitVec.toNat_ofNat ..).trans (Nat.mod_eq_of_lt (by omega)))
    · exact absurd pressed (Bool.eq_false_iff.1 (nonePressed k))

end Sys2Proof.Machine
end

section
/-! ### Faults and statuses (60_exceptions.md) -/

namespace Sys2Proof.Machine

variable {i : Instr} {s t u : State} {o : Result} {kind : FaultKind}

/-! #### The order of faults -/

theorem fetch_of_outside (outside : 0xFFE < s.pc.toNat) :
    s.fetch = .fault .memoryOutOfRange none (some (max s.pc.toNat 0x1000)) :=
  if_pos outside

theorem fetch_of_misaligned (hpc : s.pc.toNat ≤ 0xFFE) (check : s.cfg.fetchAlignCheck = true)
    (odd : s.pc.toNat % 2 = 1) : s.fetch = .fault .misalignedFetch none (some s.pc.toNat) := by
  rw [State.fetch, if_neg (Nat.not_lt.2 hpc), if_pos (by simp [check, BitVec.getLsbD, Nat.testBit_zero, odd])]

theorem stepsTo_self_of_fault (faulted : s.fault.isSome = true) : StepsTo s s :=
  ⟨step_of_fault faulted, fun rand => stepGiven_of_fault rand faulted⟩

/-- The instructions that never fault once decoded keep the fault record. -/
theorem exec_of_neverFaults (never : neverFaults i = true) (s : State) :
    ∃ t, exec i s = .next t ∧ t.fault = s.fault ∧ t.status ≠ .faulted := by
  rcases exec_ends i s with ⟨u, pc, e, keeps, -⟩ | ⟨e, -⟩ | ⟨_, _, -, can⟩
  · exact ⟨_, e, keeps, nofun⟩
  · exact ⟨_, e, rfl, nofun⟩
  · rw [never] at can
    cases can

/-- Every record in the state that `o` leaves is of the one kind. -/
def RecordsOnly (kind : FaultKind) (o : Result) : Prop :=
  ∀ t r, o = .next t → t.fault = some r → r.kind = kind

theorem recordsOnly_of_running (e : o = .next u) (running : u.fault = none) : RecordsOnly kind o := by
  rintro t r h recorded
  obtain rfl := Host.Outcome.next.inj (e.symm.trans h)
  rw [running] at recorded
  cases recorded

theorem recordsOnly_of_enterFault {word : Option Word} {addr : Option Nat}
    (e : o = .next (s.enterFault kind word addr)) : RecordsOnly kind o := by
  rintro t r h recorded
  obtain rfl := Host.Outcome.next.inj (e.symm.trans h)
  cases recorded
  rfl

/-- The one kind of fault of its own that an instruction other than the two stores can raise (60_exceptions.md rule
R218); of one that never faults, no record is asked for. -/
def ownKind (i : Instr) : FaultKind :=
  match i with
  | .ret => .stackUnderflow
  | .call _ => .stackOverflow
  | .skp _ | .sknp _ => .keyIndexOutOfRange
  | _ => .memoryOutOfRange

theorem recordsOnly_of_neverFaults (never : neverFaults i = true) (running : s.fault = none) :
    RecordsOnly kind (exec i s) := by
  obtain ⟨t, e, keeps, -⟩ := exec_of_neverFaults never s
  exact recordsOnly_of_running e (keeps.trans running)

theorem checkRange_recordsOnly {count : Nat} (i : Instr) (completes : o = .next u) (running : u.fault = none) :
    RecordsOnly .memoryOutOfRange (checkRange i count s o) := by
  rcases checkRange_cases i count s o with ⟨_, e⟩ | ⟨_, e⟩
  · exact recordsOnly_of_enterFault e
  · exact recordsOnly_of_running (e.trans completes) running

theorem setIndexChecked_recordsOnly (i : Instr) (v : Nat) (running : s.fault = none) :
    RecordsOnly .memoryOutOfRange (setIndexChecked i v s) := by
  rcases setIndexChecked_cases i v s with ⟨_, e⟩ | ⟨_, e⟩
  · exact recordsOnly_of_enterFault e
  · exact recordsOnly_of_running e running

theorem skipOnKey_recordsOnly (i : Instr) (x : RegIdx) (want : Bool) (running : s.fault = none) :
    RecordsOnly .keyIndexOutOfRange (skipOnKey i x want s) := by
  unfold skipOnKey
  split
  · exact recordsOnly_of_enterFault rfl
  · exact recordsOnly_of_running rfl running

theorem exec_recordsOnly_ownKind (noStore : ∀ x, i ≠ .bcd x ∧ i ≠ .storeRegs x) (running : s.fault = none) :
    RecordsOnly (ownKind i) (exec i s) := by
  cases i
  case ret =>
    rcases execRet_cases s with ⟨_, e⟩ | ⟨_, e⟩
    · exact recordsOnly_of_running e running
    · exact recordsOnly_of_enterFault e
  case call nnn =>
    rcases execCall_cases nnn s with ⟨_, e⟩ | ⟨_, e⟩
    · exact recordsOnly_of_running e running
    · exact recordsOnly_of_enterFault e
  case skp | sknp => exact skipOnKey_recordsOnly _ _ _ running
  case addIndex | ldGlyph => exact setIndexChecked_recordsOnly _ _ running
  case drw | loadRegs => exact checkRange_recordsOnly _ rfl running
  case bcd x =>
    obtain ⟨noBcd, -⟩ := noStore x
    exact absurd rfl noBcd
  case storeRegs x =>
    obtain ⟨-, noStoreRegs⟩ := noStore x
    exact absurd rfl noStoreRegs
  all_goals exact recordsOnly_of_neverFaults rfl running

/-- Settles O8: the fetch checks in their order, the range before the font of a store, and one kind for every other
instruction. -/
theorem faultsAreReportedInPriorityOrder : Obligations.FaultsAreReportedInPriorityOrder := by
  unfold Obligations.FaultsAreReportedInPriorityOrder
  refine ⟨fun s faulted => ?_, fun s running outside => ?_, fun s running hpc check odd => ?_,
    fun s running hpc even unknown => ?_, fun x s => ?_, fun x s => ?_, fun i noStore => ?_⟩
  · exact stepsTo_self_of_fault (Option.isSome_iff_ne_none.2 faulted)
  · exact stepsTo_of_fetchFault running (fetch_of_outside outside)
  · exact stepsTo_of_fetchFault running (fetch_of_misaligned hpc check odd)
  · exact stepsTo_of_fetchFault running (fetch_of_unknown hpc (aligned_of_even even) unknown)
  · exact faults_of_checkRange rfl
  · exact faults_of_checkRange rfl
  · exact ⟨ownKind i, fun s t r running => exec_recordsOnly_ownKind noStore running t r⟩

/-- Settles O12: the glyphs of the default `FONT_BASE` lie far below `0xFFF`, whatever `V[x]` is. -/
theorem neverFaultingInstructionsRecordNoFault : Obligations.NeverFaultingInstructionsRecordNoFault := by
  unfold Obligations.NeverFaultingInstructionsRecordNoFault
  refine ⟨fun i s never => exec_of_neverFaults never s, fun x s base => ?_⟩
  rcases execLdGlyph_cases x s with ⟨_, e⟩ | ⟨above, _⟩
  · exact ⟨_, e, rfl, rfl⟩
  · have byte := (s.reg x).isLt
    rw [glyphAddr, base] at above
    omega

/-! #### What a step that faults or blocks writes -/

/-- A step of a running machine ends as the fetched instruction does, or records the fault of its fetch, whether its
byte is given or free. -/
theorem mayStep_cases (running : s.fault = none) (h : MayStep s t) :
    (∃ i, s.fetch = .instr i ∧ ExecEnds s.markStep i t) ∨
    (∃ kind word addr, s.fetch = .fault kind word addr ∧ t = s.markStep.enterFault kind word addr) := by
  cases hf : s.fetch with
  | instr i =>
    refine .inl ⟨i, rfl, ?_⟩
    rcases h with h | ⟨rand, h⟩
    · exact execEnds_of_exec ((step_of_instr running hf).symm.trans h)
    · exact execEnds_of_execGiven ((stepGiven_of_instr rand running hf).symm.trans h)
  | fault kind word addr =>
    obtain ⟨free, given⟩ := stepsTo_of_fetchFault running hf
    refine .inr ⟨kind, word, addr, rfl, ?_⟩
    rcases h with h | ⟨rand, h⟩
    · exact Host.Outcome.next.inj (h.symm.trans free)
    · exact Host.Outcome.next.inj (h.symm.trans (given rand))

/-- Settles O9: an instruction that completes answers `Stepped`, and the other ends of a step are a block and fault
entry. -/
theorem faultingAndBlockedStepsWriteNothingElse : Obligations.FaultingAndBlockedStepsWriteNothingElse := by
  unfold Obligations.FaultingAndBlockedStepsWriteNothingElse
  intro s t running h notStepped
  rcases mayStep_cases running h with ⟨i, -, ends⟩ | ⟨kind, word, addr, -, rfl⟩
  · cases ends with
    | completes done =>
      obtain ⟨stepped, -⟩ := done.keeps
      exact absurd stepped notStepped
    | blocks x => exact ⟨rfl, fun _ => running, nofun⟩
    | faults kind addr own => exact ⟨rfl, nofun, fun _ => ⟨_, rfl, rfl⟩⟩
  · exact ⟨rfl, nofun, fun _ => ⟨_, rfl, rfl⟩⟩

/-! #### A recorded fault -/

/-- `t` is `s` with other timers and keys, the inputs that the host may change while a fault is recorded. -/
def SameButInputs (s t : State) : Prop :=
  ∃ dt st keys, t = { s with dt := dt, st := st, keys := keys }

theorem SameButInputs.refl (s : State) : SameButInputs s s := ⟨s.dt, s.st, s.keys, rfl⟩

theorem SameButInputs.trans (hst : SameButInputs s t) (htu : SameButInputs t u) : SameButInputs s u := by
  obtain ⟨_, _, _, rfl⟩ := hst
  obtain ⟨dt, st, keys, rfl⟩ := htu
  exact ⟨dt, st, keys, rfl⟩

/-- While a fault is recorded, a step returns the state, the loads are refused, and ticks and key updates write the
timers and the keys (rules R216, R227). -/
theorem transact_sameButInputs {x : Transaction} {r : Response} (started : s.stepTaken = true)
    (faulted : s.fault.isSome = true) (hx : x ≠ .reset) (h : transact x s = .next (r, t)) : SameButInputs s t := by
  cases x with
  | reset => exact absurd rfl hx
  | loadFont => cases (loadFont_of_started started).symm.trans (answering_next h)
  | loadRom rom =>
    rcases answerLoadRom_next h with h | rfl
    · cases (loadRom_of_started rom started).symm.trans h
    · exact .refl _
  | step rand =>
    obtain rfl := Host.Outcome.next.inj ((stepGiven_of_fault rand faulted).symm.trans (answerStep_next h))
    exact .refl _
  | tick | setKeys | readDisplay | readSoundTimer => cases h; exact ⟨_, _, _, rfl⟩

theorem transactAll_sameButInputs {ts : List Transaction} (started : s.stepTaken = true)
    (faulted : s.fault.isSome = true) (noReset : Transaction.reset ∉ ts) (h : transactAll ts s = .next t) :
    SameButInputs s t := by
  refine transactAll_induct (P := SameButInputs s) (fun x hx u r v hu e => ?_) (.refl s) h
  have hne : x ≠ .reset := fun hr => noReset (hr ▸ hx)
  refine hu.trans ?_
  obtain ⟨_, _, _, rfl⟩ := hu
  exact transact_sameButInputs started faulted hne e

/-- A fault is recorded by a step, so the machine has started. -/
theorem State.Inv.started_of_fault (hs : s.Inv) (faulted : s.fault ≠ none) : s.stepTaken = true := by
  by_contra fresh
  obtain ⟨-, running⟩ := hs.beforeFirstStep (Bool.eq_false_iff.2 fresh)
  exact faulted running

theorem State.Inv.faulted_iff (hs : s.Inv) : s.status = .faulted ↔ s.fault ≠ none :=
  hs.faultStatus.trans Option.isSome_iff_ne_none

/-- Settles O10, by induction on the sequence: every transaction but `reset` leaves all but the timers and the keys. -/
theorem aRecordedFaultIsStickyUntilReset : Obligations.ARecordedFaultIsStickyUntilReset := by
  unfold Obligations.ARecordedFaultIsStickyUntilReset
  refine ⟨fun s rand hs faulted => ?_, fun ts s t hs faulted noReset h => ?_, fun s => ⟨_, rfl, rfl⟩⟩
  · rw [transact, stepGiven_of_fault rand (Option.isSome_iff_ne_none.2 faulted), answerStep, hs.faulted_iff.2 faulted]
  · obtain ⟨_, _, _, rfl⟩ :=
      transactAll_sameButInputs (hs.started_of_fault faulted) (Option.isSome_iff_ne_none.2 faulted) noReset h
    exact ⟨rfl, hs.faulted_iff.2 faulted, rfl, rfl, rfl, rfl, rfl, rfl, rfl⟩

/-! #### The status of a step -/

theorem Status.eq_stepped_iff (v : Status) : v = .stepped ↔ v ≠ .blocked ∧ v ≠ .faulted := by
  cases v <;> decide

/-- The byte given to an instruction, or drawn for it, changes neither the status nor the record. -/
theorem execGiven_exec_agree (rand : Byte) (i : Instr) (s : State) :
    ∃ t u, execGiven rand i s = .next t ∧ exec i s = .next u ∧ u.status = t.status ∧ u.fault = t.fault := by
  by_cases hi : ∃ x kk, i = .rnd x kk
  · obtain ⟨x, kk, rfl⟩ := hi
    exact ⟨_, _, rfl, rfl, rfl, rfl⟩
  · obtain ⟨t, e, -⟩ := exec_execEnds i s
    exact ⟨t, t, (execGiven_of_ne (fun x kk h => hi ⟨x, kk, h⟩) rand s).trans e, e, rfl, rfl⟩

theorem stepGiven_step_agree (rand : Byte) (s : State) :
    ∃ t u, stepGiven rand s = .next t ∧ step s = .next u ∧ u.status = t.status ∧ u.fault = t.fault := by
  rcases step_cases s with ⟨faulted, e⟩ | ⟨i, running, fetched, e⟩ | ⟨kind, word, addr, running, fetched, e⟩
  · exact ⟨s, s, stepGiven_of_fault rand faulted, e, rfl, rfl⟩
  · rw [e, stepGiven_of_instr rand running fetched]
    exact execGiven_exec_agree rand i s.markStep
  · obtain ⟨-, given⟩ := stepsTo_of_fetchFault running fetched
    exact ⟨_, _, given rand, e, rfl, rfl⟩

/-- `Fx0A` alone blocks, and only while no key is pressed (44_keypad_timer.md rule R193). -/
theorem exec_blocked_iff (h : exec i s = .next t) :
    t.status = .blocked ↔ (∃ x, i = .waitKey x) ∧ ∀ k : Fin 16, s.keys[k] = false := by
  constructor
  · intro blocked
    cases execEnds_of_exec h with
    | completes done =>
      obtain ⟨stepped, -⟩ := done.keeps
      cases stepped.symm.trans blocked
    | faults kind addr own => cases blocked
    | blocks x =>
      refine ⟨⟨x, rfl⟩, ?_⟩
      rcases execWaitKey_cases x s with ⟨k, -, -, e⟩ | ⟨nonePressed, -⟩
      · cases congrArg State.status (Host.Outcome.next.inj (e.symm.trans h))
      · exact nonePressed
  · rintro ⟨⟨x, rfl⟩, nonePressed⟩
    obtain ⟨-, blocks, -⟩ := waitKeyBlocksOrStoresTheLeastKey x s
    obtain rfl := Host.Outcome.next.inj ((blocks nonePressed).symm.trans h)
    rfl

theorem step_blocked_iff (hs : s.Inv) (h : step s = .next t) :
    t.status = .blocked ↔
      s.fault = none ∧ (∃ x, s.fetch = .instr (.waitKey x)) ∧ ∀ k : Fin 16, s.keys[k] = false := by
  rcases step_cases s with ⟨faulted, e⟩ | ⟨i, running, fetched, e⟩ | ⟨kind, word, addr, running, fetched, e⟩
  · obtain rfl := Host.Outcome.next.inj (e.symm.trans h)
    have status := hs.faultStatus.2 faulted
    simp [status, Option.isSome_iff_ne_none.1 faulted]
  · rw [exec_blocked_iff (e.symm.trans h)]
    simp [running, fetched]
  · obtain rfl := Host.Outcome.next.inj (e.symm.trans h)
    simp [fetched]

/-- No step clears a record. -/
theorem running_of_step (h : step s = .next t) (running : t.fault = none) : s.fault = none := by
  by_contra faulted
  obtain rfl := Host.Outcome.next.inj ((step_of_fault (Option.isSome_iff_ne_none.2 faulted)).symm.trans h)
  exact faulted running

theorem step_stepped_iff (hs : s.Inv) (h : step s = .next t) :
    t.status = .stepped ↔ t.fault = none ∧
      ¬((∃ x, s.fetch = .instr (.waitKey x)) ∧ ∀ k : Fin 16, s.keys[k] = false) := by
  have keeps := running_of_step h
  rw [Status.eq_stepped_iff, ne_eq, ne_eq, step_blocked_iff hs h, (everyStepKeepsTheInvariant s t hs h).faulted_iff]
  tauto

/-- Settles O11: the three conditions are those of the step that is given no byte, and the given byte changes neither
the status nor the record. -/
theorem everyStepReturnsExactlyOneStatus : Obligations.EveryStepReturnsExactlyOneStatus := by
  unfold Obligations.EveryStepReturnsExactlyOneStatus
  intro s rand hs
  obtain ⟨t, u, given, free, status, fault⟩ := stepGiven_step_agree rand s
  refine ⟨t, u, free, status, fault, by rw [transact, given, answerStep], ?_⟩
  rw [← status, ← fault]
  exact ⟨step_blocked_iff hs free, (everyStepKeepsTheInvariant s u hs free).faulted_iff, step_stepped_iff hs free⟩

/-! #### Ticks and codes -/

/-- Settles O26. -/
theorem tickCountsEachTimerDownToZero : Obligations.TickCountsEachTimerDownToZero := by
  unfold Obligations.TickCountsEachTimerDownToZero
  exact fun s => ⟨tick s, rfl, countDown_toNat s.dt, countDown_toNat s.st, rfl⟩

theorem FaultKind.code_injective : Function.Injective FaultKind.code := by
  intro j k h
  cases j <;> cases k <;> trivial

theorem FaultKind.code_le_seven (k : FaultKind) : k.code ≤ 7 := by
  cases k <;> decide

/-- Settles O60: the code of a record is the code of its kind. -/
theorem everyFaultKindHasItsOwnCode : Obligations.EveryFaultKindHasItsOwnCode := by
  unfold Obligations.EveryFaultKindHasItsOwnCode
  refine ⟨fun r => ?_, fun q r h => FaultKind.code_injective h⟩
  have own {k : FaultKind} (h : r.kind = k) : r.code = k.code := congrArg FaultKind.code h
  exact ⟨own, own, own, own, own, own, own, Nat.ne_of_lt (Nat.lt_succ_of_le r.kind.code_le_seven)⟩

end Sys2Proof.Machine
end

section
/-! ### The loads and boot (70_reset_and_hazards.md rules R240 to R244) -/

namespace Sys2Proof.Machine

variable {s t : State} {rom : List Byte} {a : Nat}

/-! #### What a load leaves -/

/-- The state with the font at `FONT_BASE` (rule R242). -/
def State.withFont (s : State) : State :=
  s.setMem (Memory.writeBytes s.mem s.cfg.fontBase (fontBytes s.cfg))

/-- The state with the ROM at `0x200` (rule R243). -/
def State.withRom (rom : List Byte) (s : State) : State :=
  s.setMem (Memory.writeBytes s.mem Config.romBase rom)

theorem transact_loadFont (fresh : s.stepTaken = false) (hc : s.cfg.wf) :
    transact .loadFont s = .next (.nothing, s.withFont) :=
  congrArg (answering .nothing) (loadFont_of_fresh fresh hc)

theorem transact_loadRom_of_fits (fresh : s.stepTaken = false) (fits : romFits rom) :
    transact (.loadRom rom) s = .next (.ok, s.withRom rom) :=
  congrArg (answerLoadRom s) (loadRom_of_fits fresh fits)

theorem transact_loadRom_of_large (fresh : s.stepTaken = false) (large : ¬romFits rom) :
    transact (.loadRom rom) s = .next (.romTooLarge, s) :=
  congrArg (answerLoadRom s) (loadRom_of_large fresh large)

theorem State.Inv.withFont (hs : s.Inv) (fresh : s.stepTaken = false) : s.withFont.Inv := by
  obtain ⟨kept, -⟩ := loadFont_keeps_inv hs (loadFont_of_fresh fresh hs.configWf)
  exact kept

theorem withFont_fontLoaded (hs : s.Inv) (fresh : s.stepTaken = false) : s.withFont.fontLoaded :=
  loadFont_fontLoaded hs (loadFont_of_fresh fresh hs.configWf)

theorem withRom_keepsFont (hs : s.Inv) (fresh : s.stepTaken = false) (fits : romFits rom) :
    KeepsFont s (s.withRom rom) :=
  loadRom_keepsFont hs (loadRom_of_fits fresh fits)

/-! #### Its bytes -/

theorem fontBytes_inMemory {c : Config} (hc : c.wf) : c.fontBase + (fontBytes c).length ≤ Config.memSize := by
  have below : c.fontBase + 80 ≤ 0x200 := hc
  rw [fontBytes_length]
  exact below.trans (by decide)

theorem rom_inMemory (fits : romFits rom) : Config.romBase + rom.length ≤ Config.memSize :=
  Nat.add_le_add_left fits 0x200

theorem read_withFont_outside (hs : s.Inv) (outside : ¬(s.cfg.fontBase ≤ a ∧ a < s.cfg.fontBase + 80)) :
    Memory.read s.withFont.mem a = Memory.read s.mem a :=
  Memory.read_writeBytes_outside hs.memCanonical (fontBytes_inMemory hs.configWf) (by rw [fontBytes_length]; omega)

theorem read_withRom (hs : s.Inv) (fits : romFits rom) (k : Fin rom.length) :
    Memory.read (s.withRom rom).mem (0x200 + k.val) = rom[k] :=
  Memory.read_writeBytes_getElem hs.memCanonical (rom_inMemory fits) k.isLt

theorem read_withRom_outside (hs : s.Inv) (fits : romFits rom) (outside : ¬(0x200 ≤ a ∧ a < 0x200 + rom.length)) :
    Memory.read (s.withRom rom).mem a = Memory.read s.mem a :=
  Memory.read_writeBytes_outside hs.memCanonical (rom_inMemory fits)
    (show a < 0x200 ∨ 0x200 + rom.length ≤ a by omega)

/-- Settles O22. -/
theorem loadsWriteExactlyTheirBytes : Obligations.LoadsWriteExactlyTheirBytes := by
  unfold Obligations.LoadsWriteExactlyTheirBytes
  intro rom s hs fresh
  refine ⟨⟨_, transact_loadFont fresh hs.configWf, rfl, withFont_fontLoaded hs fresh, fun _ => ?_⟩,
    fun fits => ⟨_, transact_loadRom_of_fits fresh fits, rfl, read_withRom hs fits, fun _ => ?_⟩, fun large => ?_⟩
  · exact read_withFont_outside hs
  · exact read_withRom_outside hs fits
  · exact transact_loadRom_of_large fresh (Nat.not_le.2 large)

/-! #### Both loads -/

/-- Consecutive writes to two separate blocks commute: either way every byte is the same. -/
theorem Memory.writeBytes_comm {m : Memory} (hm : Memory.wf m) {a b : Nat} {p q : List Byte}
    (hp : a + p.length ≤ Config.memSize) (hq : b + q.length ≤ Config.memSize) (apart : a + p.length ≤ b) :
    Memory.writeBytes (Memory.writeBytes m a p) b q = Memory.writeBytes (Memory.writeBytes m b q) a p := by
  have hmp := Memory.wf_writeBytes p hm hp
  have hmq := Memory.wf_writeBytes q hm hq
  refine memoriesWithEqualBytesAreEqual _ _ (Memory.wf_writeBytes q hmp hq) (Memory.wf_writeBytes p hmq hp) fun c => ?_
  by_cases inQ : b ≤ c ∧ c < b + q.length
  · rw [Memory.read_writeBytes q hmp hq, dif_pos inQ, Memory.read_writeBytes_outside hmq hp (by omega),
      Memory.read_writeBytes q hm hq, dif_pos inQ]
  · rw [Memory.read_writeBytes_outside hmp hq (by omega), Memory.read_writeBytes p hm hp,
      Memory.read_writeBytes p hmq hp, Memory.read_writeBytes_outside hm hq (by omega)]

/-- The font lies below the ROM, so that neither load writes over the other (20_memory.md rule R57). -/
theorem withFont_withRom_comm (hs : s.Inv) (fits : romFits rom) : s.withFont.withRom rom = (s.withRom rom).withFont := by
  have below : s.cfg.fontBase + (fontBytes s.cfg).length ≤ Config.romBase := by
    rw [fontBytes_length]
    exact hs.configWf
  exact congrArg s.setMem
    (Memory.writeBytes_comm hs.memCanonical (fontBytes_inMemory hs.configWf) (rom_inMemory fits) below)

/-- A transaction that answers is followed by the rest of its sequence. -/
theorem transactAll_cons_of_next {x : Transaction} {r : Response} (e : transact x s = .next (r, t))
    (xs : List Transaction) : transactAll (x :: xs) s = transactAll xs t := by
  simp only [transactAll, e]

theorem transactAll_loadFont_loadRom (fresh : s.stepTaken = false) (hc : s.cfg.wf) (fits : romFits rom) :
    transactAll [.loadFont, .loadRom rom] s = .next (s.withFont.withRom rom) := by
  rw [transactAll_cons_of_next (transact_loadFont fresh hc)]
  exact transactAll_cons_of_next (transact_loadRom_of_fits (s := s.withFont) fresh fits) []

theorem transactAll_loadRom_loadFont (fresh : s.stepTaken = false) (hc : s.cfg.wf) (fits : romFits rom) :
    transactAll [.loadRom rom, .loadFont] s = .next (s.withRom rom).withFont := by
  rw [transactAll_cons_of_next (transact_loadRom_of_fits fresh fits)]
  exact transactAll_cons_of_next (transact_loadFont (s := s.withRom rom) fresh hc) []

/-- Settles O23. -/
theorem fontAndRomLoadInEitherOrder : Obligations.FontAndRomLoadInEitherOrder := by
  unfold Obligations.FontAndRomLoadInEitherOrder
  intro rom s hs fresh fits
  refine ⟨_, transactAll_loadFont_loadRom fresh hs.configWf fits, ?_⟩
  rw [transactAll_loadRom_loadFont fresh hs.configWf fits, withFont_withRom_comm hs fits]

/-! #### Boot -/

/-- Settles O21: the two loads of the machine after `reset`. -/
theorem bootLeavesTheCleanLaunchState : Obligations.BootLeavesTheCleanLaunchState := by
  unfold Obligations.BootLeavesTheCleanLaunchState
  intro rom s hc fits
  have reset : (resetMachine s).Inv := initial_inv hc s.draws
  have font : (resetMachine s).withFont.Inv := reset.withFont rfl
  refine ⟨_, transactAll_loadFont_loadRom (s := resetMachine s) rfl hc fits, rfl, ?_, read_withRom font fits,
    fun a outsideFont outsideRom => ?_⟩
  · exact (withFont_fontLoaded reset rfl).keep rfl (withRom_keepsFont font rfl fits)
  · rw [read_withRom_outside font fits outsideRom, read_withFont_outside reset outsideFont]
    exact Memory.read_nil a

/-- With the font alone, the word at `0x200` is the reset content of memory. -/
theorem wordAtPc_reset_withFont (hc : s.cfg.wf) : (resetMachine s).withFont.wordAtPc = 0x0000 := by
  have above : ∀ a, 0x200 ≤ a → Memory.read (resetMachine s).withFont.mem a = 0x00 := by
    intro a ha
    have below : s.cfg.fontBase + 80 ≤ 0x200 := hc
    exact read_withFont_outside (initial_inv hc s.draws) fun ⟨_, inside⟩ => absurd inside (below.trans ha).not_gt
  exact congrArg₂ wordOfBytes (above 0x200 (by decide)) (above 0x201 (by decide))

theorem fetch_reset_withFont (hc : s.cfg.wf) :
    (resetMachine s).withFont.fetch = .fault .unknownInstruction (some 0x0000) none := by
  have word := wordAtPc_reset_withFont hc
  rw [← word]
  exact fetch_of_unknown (show (0x200 : Word).toNat ≤ 0xFFE by decide)
    (aligned_of_even fun _ => show (0x200 : Word).toNat % 2 = 0 by decide) (by rw [word]; decide)

/-- Settles O24: boot leaves the machine as after `reset` and `load_font`, where no program stands. -/
theorem oversizedRomIsRejectedAndChangesNothing : Obligations.OversizedRomIsRejectedAndChangesNothing := by
  unfold Obligations.OversizedRomIsRejectedAndChangesNothing
  refine ⟨rfl, fun rom s hc long => ?_⟩
  have large : ¬romFits rom := Nat.not_le.2 long
  have font : transact .loadFont (resetMachine s) = .next (.nothing, (resetMachine s).withFont) :=
    transact_loadFont rfl hc
  have rejected := transact_loadRom_of_large (s := (resetMachine s).withFont) rfl large
  exact ⟨fun fresh => transact_loadRom_of_large fresh large, _, _, transactAll_cons_of_next font [],
    (transactAll_cons_of_next font _).trans (transactAll_cons_of_next rejected []),
    step_of_fetchFault rfl (fetch_reset_withFont hc), rfl⟩

/-! #### Loads after a step -/

theorem ExecEnds.stepTaken {i : Instr} (ends : ExecEnds s i t) : t.stepTaken = s.stepTaken := by
  cases ends with
  | completes done =>
    obtain ⟨-, -, -, kept⟩ := done.keeps
    exact kept
  | blocks x => rfl
  | faults kind addr own => rfl

/-- A step marks the machine, and one whose fault is recorded is marked already (log entry 6). -/
theorem stepTaken_of_mayStep (hs : s.Inv) (h : MayStep s t) : t.stepTaken = true := by
  by_cases running : s.fault = none
  · rcases mayStep_cases running h with ⟨i, -, ends⟩ | ⟨kind, word, addr, -, rfl⟩
    · exact ends.stepTaken
    · rfl
  · obtain ⟨free, given⟩ := stepsTo_self_of_fault (Option.isSome_iff_ne_none.2 running)
    have same : t = s := by
      rcases h with h | ⟨rand, h⟩
      · exact Host.Outcome.next.inj (h.symm.trans free)
      · exact Host.Outcome.next.inj (h.symm.trans (given rand))
    exact same ▸ hs.started_of_fault running

/-- Settles O25. -/
theorem loadsAreRefusedOnceAStepHasRun : Obligations.LoadsAreRefusedOnceAStepHasRun := by
  unfold Obligations.LoadsAreRefusedOnceAStepHasRun
  intro s t rom hs h
  have started := stepTaken_of_mayStep hs h
  exact ⟨congrArg (answering .nothing) (loadFont_of_started started),
    congrArg (answerLoadRom t) (loadRom_of_started rom started)⟩

end Sys2Proof.Machine
end

section
/-! ### The delay timer between its write and its read (70_reset_and_hazards.md rule R254) -/

namespace Sys2Proof.Machine

variable {s t : State}

/-- A load that answers a state has written memory alone. -/
theorem exists_setMem_of_loadFont (h : loadFont s = .next t) : ∃ m, t = s.setMem m := by
  unfold loadFont at h
  split at h
  · cases h
  · split at h
    · cases h; exact ⟨_, rfl⟩
    · cases h

theorem exists_setMem_of_loadRom {rom : List Byte} (h : loadRom rom s = .next t) : ∃ m, t = s.setMem m := by
  unfold loadRom at h
  split at h
  · cases h
  · split at h
    · cases h; exact ⟨_, rfl⟩
    · cases h

/-- Only `Fx15` writes the delay timer, whichever byte the step is given. -/
theorem ExecEnds.dt_of_ne {i : Instr} (ends : ExecEnds s i t) (hd : ¬∃ z, i = .setDt z) : t.dt = s.dt := by
  cases ends with
  | completes done =>
    cases done with
    | setDt x => exact absurd ⟨x, rfl⟩ hd
    | _ => rfl
  | blocks x => rfl
  | faults kind addr own => rfl

theorem stepGiven_dt_of_never {rand : Byte} (h : stepGiven rand s = .next t)
    (never : ∀ i, s.fault = none → s.fetch = .instr i → ¬∃ z, i = .setDt z) : t.dt = s.dt := by
  rcases stepGiven_cases rand s with ⟨-, e⟩ | ⟨i, running, fetched, e⟩ | ⟨kind, word, addr, -, -, e⟩
  · obtain rfl := Host.Outcome.next.inj (e.symm.trans h)
    rfl
  · exact (execEnds_of_execGiven (e.symm.trans h)).dt_of_ne (never i running fetched)
  · obtain rfl := Host.Outcome.next.inj (e.symm.trans h)
    rfl

/-- Of the transactions other than `reset`, a tick alone lowers the delay timer, where no step runs an `Fx15`. -/
theorem transact_dt {x : Transaction} {r : Response} (h : transact x s = .next (r, t)) (hx : x ≠ .reset)
    (never : ∀ rand i, x = .step rand → s.fault = none → s.fetch = .instr i → ¬∃ z, i = .setDt z) :
    t.dt = if x = .tick then countDown s.dt else s.dt := by
  cases x with
  | reset => exact absurd rfl hx
  | loadFont =>
    obtain ⟨m, rfl⟩ := exists_setMem_of_loadFont (answering_next h)
    rfl
  | loadRom rom =>
    rcases answerLoadRom_next h with h | rfl
    · obtain ⟨m, rfl⟩ := exists_setMem_of_loadRom h
      rfl
    · rfl
  | step rand => exact stepGiven_dt_of_never (answerStep_next h) fun i => never rand i rfl
  | tick | setKeys | readDisplay | readSoundTimer => cases h; rfl

theorem transactAll_dt {ts : List Transaction} (noReset : Transaction.reset ∉ ts)
    (never : NeverRuns (fun i => ∃ z, i = .setDt z) ts s) (h : transactAll ts s = .next t) :
    t.dt.toNat = s.dt.toNat - ts.count .tick := by
  induction ts generalizing s with
  | nil => cases h; rfl
  | cons x ts ih =>
    obtain ⟨r, u, e, rest⟩ := transactAll_cons h
    obtain ⟨neverHere, neverLater⟩ := never
    have here := transact_dt e (fun hx => noReset (by simp [hx])) neverHere
    rw [ih (fun hr => noReset (List.mem_cons_of_mem x hr)) (neverLater r u e) rest, here]
    by_cases hx : x = .tick
    · subst hx
      rw [if_pos rfl, countDown_toNat, List.count_cons_self, Nat.sub_sub, Nat.add_comm]
    · rw [if_neg hx, List.count_cons_of_ne hx]

/-- Settles O27, by induction on the sequence: a tick lowers the timer, and every other transaction keeps it. -/
theorem delayReadsBackLessTheTicksBetween : Obligations.DelayReadsBackLessTheTicksBetween := by
  unfold Obligations.DelayReadsBackLessTheTicksBetween
  intro x y ts s t u written noReset never h
  cases written
  have read : ((u.setReg y u.dt).complete (u.pc + 2)).reg y = u.dt := State.setReg_reg_self u y u.dt
  exact ⟨_, rfl, rfl, (congrArg BitVec.toNat read).trans (transactAll_dt noReset never h)⟩

end Sys2Proof.Machine
end

section
/-! ### Steps that come back to themselves (70_reset_and_hazards.md rules R247, R252) -/

namespace Sys2Proof.Machine

variable {i : Instr} {s t u : State}

/-- A step of an instruction other than `Cxkk` leads to one state, whatever byte is drawn for it. -/
theorem stepsTo_of_instr (running : s.fault = none) (fetched : s.fetch = .instr i) (hi : ∀ x kk, i ≠ .rnd x kk)
    (e : exec i s.markStep = .next t) : StepsTo s t :=
  ⟨(step_of_instr running fetched).trans e,
    fun rand => (stepGiven_of_instr rand running fetched).trans ((execGiven_of_ne hi rand _).trans e)⟩

/-! #### A blocked wait -/

/-- A step that blocks has fetched an `Fx0A`, and leaves all but the status and the mark. -/
theorem blocked_of_mayStep (running : s.fault = none) (h : MayStep s t) (blocked : t.status = .blocked) :
    (∃ x, s.fetch = .instr (.waitKey x)) ∧ t = { s with status := .blocked, stepTaken := true } := by
  rcases mayStep_cases running h with ⟨i, fetched, ends⟩ | ⟨kind, word, addr, -, rfl⟩
  · cases ends with
    | completes done =>
      obtain ⟨stepped, -⟩ := done.keeps
      cases stepped.symm.trans blocked
    | blocks x => exact ⟨⟨x, fetched⟩, rfl⟩
    | faults kind addr own => cases blocked
  · cases blocked

/-- Ticks, key updates and host reads write the timers and the keys alone. -/
theorem transactAll_inputs {ts : List Transaction}
    (inputs : ∀ x ∈ ts, x = .tick ∨ x = .readDisplay ∨ x = .readSoundTimer ∨ ∃ k, x = .setKeys k)
    (h : transactAll ts s = .next t) : SameButInputs s t := by
  refine transactAll_induct (P := SameButInputs s) (fun x hx u r v hu e => hu.trans ?_) (.refl s) h
  rcases inputs x hx with rfl | rfl | rfl | ⟨k, rfl⟩
  all_goals cases e; exact ⟨_, _, _, rfl⟩

/-- A machine blocked at its `Fx0A` stays as it is while no key is pressed. -/
theorem stepsTo_self_of_blocked {x : RegIdx} (running : s.fault = none) (fetched : s.fetch = .instr (.waitKey x))
    (blocked : s.status = .blocked) (started : s.stepTaken = true) (up : ∀ k : Fin 16, s.keys[k] = false) :
    StepsTo s s := by
  obtain ⟨-, blocks, -⟩ := waitKeyBlocksOrStoresTheLeastKey x s
  refine stepsTo_of_instr running fetched nofun ?_
  rw [State.markStep_of_started started, blocks up, ← blocked]

/-- Settles O29: the block and the inputs after it change nothing that the fetch reads. -/
theorem aBlockedWaitIsFetchedAgainThroughTicksAndKeyUpdates :
    Obligations.ABlockedWaitIsFetchedAgainThroughTicksAndKeyUpdates := by
  unfold Obligations.ABlockedWaitIsFetchedAgainThroughTicksAndKeyUpdates
  intro ts s t u running h blocked inputs hts
  obtain ⟨⟨x, fetched⟩, rfl⟩ := blocked_of_mayStep running h blocked
  obtain ⟨dt, st, keys, rfl⟩ := transactAll_inputs inputs hts
  exact ⟨rfl, rfl, ⟨x, fetched, fetched⟩, stepsTo_self_of_blocked running fetched rfl rfl⟩

/-! #### A jump to itself -/

theorem tick_iterate (s : State) (n : Nat) :
    tick^[n] s = { s with dt := countDown^[n] s.dt, st := countDown^[n] s.st } := by
  induction n with
  | zero => rfl
  | succ n ih =>
    simp only [Function.iterate_succ_apply', ih]
    rfl

theorem countDown_iterate_toNat (v : Byte) (n : Nat) : (countDown^[n] v).toNat = v.toNat - n := by
  induction n with
  | zero => rfl
  | succ n ih => rw [Function.iterate_succ_apply', countDown_toNat, ih, Nat.sub_sub]

/-- A step of a halted machine sets the mark and changes nothing else. -/
theorem State.Halted.stepsTo (halted : s.Halted) (running : s.fault = none) : StepsTo s s.markStep := by
  obtain ⟨stepped, nnn, fetched, self⟩ := halted
  have target : zextAddr nnn = s.pc := BitVec.eq_of_toNat_eq ((zextAddr_toNat nnn).trans self)
  have same : s.markStep.complete s.pc = s.markStep := by
    rw [State.complete, ← stepped]
    rfl
  refine stepsTo_of_instr running fetched nofun ?_
  show Host.Outcome.next (s.markStep.complete (zextAddr nnn)) = _
  rw [target, same]

/-- Settles O30: ticks leave the machine halted, and its step sets the mark. -/
theorem aSelfJumpChangesNothingButTheTimers : Obligations.ASelfJumpChangesNothingButTheTimers := by
  unfold Obligations.ASelfJumpChangesNothingButTheTimers
  intro s n running halted
  rw [tick_iterate]
  have ticked : ({ s with dt := countDown^[n] s.dt, st := countDown^[n] s.st } : State).Halted := halted
  exact ⟨_, ticked.stepsTo running, halted, rfl, countDown_iterate_toNat s.dt n, countDown_iterate_toNat s.st n⟩

end Sys2Proof.Machine
end
